-- ==== Sys2Proof/Word.lean ====
section
/-! DEFINITION. The word of the rayhan VM core: the one unit of memory, of every register and of every instruction
field (00_scope.md R6, R8). -/

namespace Sys2Proof

/-- A 16-bit unsigned value (R8, R14): a memory word, a register, an address or an instruction word. Sums and
differences of words are taken modulo 65536, as R53 and R177 say of addresses and of the ALU. -/
abbrev Word := BitVec 16

end Sys2Proof
end

