-- ==== Sys2Proof/Config.lean ====
section
/-! DEFINITION. The fixed parameters of the machine (00_scope.md R6). "None is configurable; a model may hard-code each
one." There is no opaque constant here: the spec leaves no value free (40_cycle_and_hlt.md R150). -/

namespace Sys2Proof

/-- MEMWORDS: the number of memory words, addresses 0 to 65535 (R6, R20). -/
abbrev Config.memWords : Nat := 65536

/-- NREGS: the number of registers (R6, R24). -/
abbrev Config.numRegs : Nat := 7

/-- NOPS: the number of defined opcodes, values 0 to 10 (R6, R81). -/
abbrev Config.numOpcodes : Nat := 11

/-- The entry point: word address 0 (R6, R54, R270). -/
abbrev Config.entryPoint : Word := 0

/-- What a word reads as that no one loaded: 0 (10_state.md R22, R42: "0 in every word no one loaded"). -/
abbrev Config.unlistedWord : Word := 0

/-- The number of words of the longest instruction, CMP (R6, R88). -/
abbrev Config.maxLength : Nat := 5

end Sys2Proof
end

