-- ==== Sys2Proof/Syntax.lean ====
section
/-! DEFINITION. The registers, the eleven instructions and the causes of an abnormal halt, by name. An instruction
carries its operand words as the encoding has them, whole 16-bit words (30_encoding.md R80 to R89). -/

namespace Sys2Proof

/-- The closed set of seven register identifiers (10_state.md R24). -/
inductive Reg where
  /-- AX, a general register (R25). -/
  | ax
  /-- BX, a general register (R25). -/
  | bx
  /-- CX, a general register (R25). -/
  | cx
  /-- DX, a general register (R25). -/
  | dx
  /-- SP, which no instruction uses implicitly and which behaves as AX does (R32). -/
  | sp
  /-- IP, the program counter (R27). -/
  | ip
  /-- FLAGS, the equality flag (R29). -/
  | flags
deriving DecidableEq, Repr

/-- The instructions: one constructor per row of the opcode table (30_encoding.md R87, R95). -/
inductive Instr where
  /-- HLT, opcode 0 (R146). -/
  | hlt
  /-- MOV reg, imm, opcode 1 (R171). -/
  | movImm (regId imm16 : Word)
  /-- ADD reg, imm, opcode 2 (R172). -/
  | addImm (regId imm16 : Word)
  /-- SUB reg, imm, opcode 3 (R173). -/
  | subImm (regId imm16 : Word)
  /-- MOV reg, reg, opcode 4 (R174). -/
  | movReg (regId1 regId2 : Word)
  /-- ADD reg, reg, opcode 5 (R175). -/
  | addReg (regId1 regId2 : Word)
  /-- SUB reg, reg, opcode 6 (R176). -/
  | subReg (regId1 regId2 : Word)
  /-- JMP addr, opcode 7 (R221). -/
  | jmp (addr16 : Word)
  /-- CMP a, b, opcode 8 (R202). -/
  | cmp (tagA valA tagB valB : Word)
  /-- JE addr, opcode 9 (R222). -/
  | je (addr16 : Word)
  /-- JNE addr, opcode 10 (R223). -/
  | jne (addr16 : Word)
deriving DecidableEq, Repr

/-- The causes of an abnormal halt, symbolic names without a numeric code (10_state.md R36, 60_exceptions.md R242). -/
inductive Cause where
  /-- The word fetched as an opcode is above 10 (R241). -/
  | unknownOpcode
  /-- A word that must be a register number is above 6 (R244). -/
  | invalidRegister
  /-- A tag word of CMP is above 1 (R245). -/
  | invalidTag
deriving DecidableEq, Repr

/-- What the decoder reports of words that are no instruction: the cause and the first offending word (R95, R247). The
address that `Fault(c, a, w)` of R95 also carries is the address decoded at, which the abnormal halt records. -/
structure DecodeError where
  /-- Which of the three decode errors it is. -/
  cause : Cause
  /-- The offending word (R242's `w`). -/
  word  : Word
deriving DecidableEq, Repr

end Sys2Proof
end

