-- ==== Sys2Proof/WellFormed.lean ====
section
/-! DEFINITION. Which instructions have legal operand words (30_encoding.md R89, R93). An ill-formed one is not refused
by the machine: it takes the abnormal halt of R244 or R245. -/

namespace Sys2Proof

/-- A register-number word is legal if it is 0 to 6 (R89). -/
def regIdOk (w : Word) : Bool := decide (w.toNat < Config.numRegs)

/-- A tag word is legal if it is 0 or 1 (R89). -/
def tagOk (t : Word) : Bool := decide (t.toNat ≤ 1)

/-- A CMP operand is legal if its tag is, and, under tag 0, its value word is a legal register number (R86, R89). -/
def operandOk (t v : Word) : Bool := tagOk t && (decide (t.toNat = 1) || regIdOk v)

/-- Every operand word of the instruction is legal (R89, R93). -/
def Instr.wellFormed : Instr → Bool
  | .hlt => true
  | .movImm r _ => regIdOk r
  | .addImm r _ => regIdOk r
  | .subImm r _ => regIdOk r
  | .movReg d s => regIdOk d && regIdOk s
  | .addReg d s => regIdOk d && regIdOk s
  | .subReg d s => regIdOk d && regIdOk s
  | .jmp _ => true
  | .cmp tA vA tB vB => operandOk tA vA && operandOk tB vB
  | .je _ => true
  | .jne _ => true

end Sys2Proof
end

