-- ==== Sys2Proof/Decode.lean ====
section
/-! DEFINITION. The decoder, a total function that reports what it cannot decode by name (30_encoding.md R80 to R96),
and the encoder, written from the same format tables (R82 to R87). -/

namespace Sys2Proof

/-- The register a register-number word names: the position in the source's own listing order (00_scope.md R7,
decision D1). -/
def Reg.ofNumber? (w : Word) : Option Reg :=
  match w.toNat with
  | 0 => some .ax
  | 1 => some .bx
  | 2 => some .cx
  | 3 => some .dx
  | 4 => some .sp
  | 5 => some .ip
  | 6 => some .flags
  | _ => none

/-- The number of a register (R7, R111). -/
def Reg.number : Reg → Word
  | .ax => 0
  | .bx => 1
  | .cx => 2
  | .dx => 3
  | .sp => 4
  | .ip => 5
  | .flags => 6

/-- The register a register-number word names, or the decode error InvalidRegister with that word (R93, R244). -/
def regOf (w : Word) : Except DecodeError Reg :=
  match Reg.ofNumber? w with
  | some r => .ok r
  | none => .error ⟨.invalidRegister, w⟩

/-- What a CMP operand denotes, once its tag is read (42_cmp.md R200). -/
inductive Operand where
  /-- Tag 0: the register's current value. -/
  | reg (r : Reg)
  /-- Tag 1: the value word itself. -/
  | imm (v : Word)
deriving DecidableEq, Repr

/-- Reads a tag word and its value word as an operand, the tag being checked first (R86, R93, R247). -/
def operandOf (t v : Word) : Except DecodeError Operand :=
  match t.toNat with
  | 0 => (regOf v).map .reg
  | 1 => .ok (.imm v)
  | _ => .error ⟨.invalidTag, t⟩

/-- The operand checks of the decoder, in ascending word order: the first illegal word is the one reported (R93, R95,
R247). -/
def operandCheck : Instr → Except DecodeError Unit
  | .hlt => .ok ()
  | .movImm r _ => do let _ ← regOf r; return ()
  | .addImm r _ => do let _ ← regOf r; return ()
  | .subImm r _ => do let _ ← regOf r; return ()
  | .movReg d s => do let _ ← regOf d; let _ ← regOf s; return ()
  | .addReg d s => do let _ ← regOf d; let _ ← regOf s; return ()
  | .subReg d s => do let _ ← regOf d; let _ ← regOf s; return ()
  | .jmp _ => .ok ()
  | .cmp tA vA tB vB => do let _ ← operandOf tA vA; let _ ← operandOf tB vB; return ()
  | .je _ => .ok ()
  | .jne _ => .ok ()

/-- The length in words of the instruction with opcode word `op`, undefined above 10 (R88). -/
def opcodeLength? (op : Word) : Option Nat :=
  match op.toNat with
  | 0 => some 1
  | 1 | 2 | 3 | 4 | 5 | 6 => some 3
  | 7 | 9 | 10 => some 2
  | 8 => some 5
  | _ => none

/-- The opcode map (R87): the instruction whose opcode word is `word 0` and whose operand words are `word 1`, `word 2`,
and so on, its operand words not yet checked. -/
def opcodeMap (word : Nat → Word) : Option Instr :=
  match (word 0).toNat with
  | 0 => some .hlt
  | 1 => some (.movImm (word 1) (word 2))
  | 2 => some (.addImm (word 1) (word 2))
  | 3 => some (.subImm (word 1) (word 2))
  | 4 => some (.movReg (word 1) (word 2))
  | 5 => some (.addReg (word 1) (word 2))
  | 6 => some (.subReg (word 1) (word 2))
  | 7 => some (.jmp (word 1))
  | 8 => some (.cmp (word 1) (word 2) (word 3) (word 4))
  | 9 => some (.je (word 1))
  | 10 => some (.jne (word 1))
  | _ => none

/-- The decoder (R95), over the words at the address decoded at and after it: `word i` is the word `i` places on. An
opcode word above 10 is UnknownOpcode (R92), an illegal operand word is reported by the operand checks. -/
def decode (word : Nat → Word) : Except DecodeError Instr :=
  match opcodeMap word with
  | none => .error ⟨.unknownOpcode, word 0⟩
  | some i =>
    match operandCheck i with
    | .error e => .error e
    | .ok _ => .ok i

/-- The opcode word of an instruction (R87). -/
def Instr.opcode : Instr → Word
  | .hlt => 0
  | .movImm _ _ => 1
  | .addImm _ _ => 2
  | .subImm _ _ => 3
  | .movReg _ _ => 4
  | .addReg _ _ => 5
  | .subReg _ _ => 6
  | .jmp _ => 7
  | .cmp _ _ _ _ => 8
  | .je _ => 9
  | .jne _ => 10

/-- The operand words of an instruction, in order (R82 to R86). -/
def Instr.operandWords : Instr → List Word
  | .hlt => []
  | .movImm r i => [r, i]
  | .addImm r i => [r, i]
  | .subImm r i => [r, i]
  | .movReg d s => [d, s]
  | .addReg d s => [d, s]
  | .subReg d s => [d, s]
  | .jmp t => [t]
  | .cmp tA vA tB vB => [tA, vA, tB, vB]
  | .je t => [t]
  | .jne t => [t]

/-- The encoder: the words of an instruction, opcode first (R80, R82 to R87). -/
def encode (i : Instr) : List Word := i.opcode :: i.operandWords

/-- The decoder over a list of words, every word past its end being 0. -/
def decodeWords (ws : List Word) : Except DecodeError Instr := decode fun i => ws.getD i 0

/-- Word `i` of an instruction whose bits are `w`, bit 0 the least significant bit of the first word; every bit from
`nbits` on is 0. -/
def tableWord (nbits w i : Nat) : Word := BitVec.ofNat 16 (w % 2 ^ nbits / 65536 ^ i)

/-- The instruction the decoder reads from an instruction whose bits are `w`, numbered as the opcode table numbers
them; none where the decoder reports an error. -/
def decodeTableWord (nbits w : Nat) : Option Instr :=
  match decode (tableWord nbits w) with
  | .ok i => some i
  | .error _ => none

end Sys2Proof
end

