-- ==== Sys2Proof/Machine/State.lean ====
section
/-! DEFINITION. The state of the rayhan VM core: the memory M, the register file x and the run status, and nothing else
(10_state.md). -/

namespace Sys2Proof.Machine

/-- The memory M (10_state.md R20), as the list of its words that are not what an unlisted address reads as: pairs of a
word address and a 16-bit word. The cell is the word, the smallest unit the machine can address, because the machine
has no byte address and no byte order (R20, R50, R51; log 1). -/
abbrev Memory := List (Nat × Word)

/-- The canonical form of a memory: addresses strictly rising, each a word address of the machine, and no entry equal
to what an unlisted address reads as. Equal memories are then equal lists. -/
abbrev Memory.wf (m : Memory) : Prop :=
  m.Pairwise (fun c d => c.1 < d.1) ∧ ∀ c ∈ m, c.1 < Config.memWords ∧ c.2 ≠ Config.unlistedWord

/-- The register file x: seven 16-bit registers, IP and FLAGS among them (R24). -/
structure RegFile where
  /-- AX (R25). -/
  ax    : Word
  /-- BX (R25). -/
  bx    : Word
  /-- CX (R25). -/
  cx    : Word
  /-- DX (R25). -/
  dx    : Word
  /-- SP (R32). -/
  sp    : Word
  /-- IP, the program counter (R27). -/
  ip    : Word
  /-- FLAGS, all 16 bits (R29). -/
  flags : Word
deriving DecidableEq, Repr

/-- What an abnormal halt records beside its cause (R36): "the pair of the word address of the offending instruction's
opcode word … and the offending word itself". -/
structure HaltInfo where
  /-- The address of the instruction's opcode word. -/
  address : Word
  /-- The offending word. -/
  word    : Word
deriving DecidableEq, Repr

/-- The run status (R34). -/
inductive Status where
  /-- A step may be taken (R35). -/
  | running
  /-- The run ended by HLT (R146). -/
  | halted
  /-- The run ended by a decode error (R240). -/
  | faulted (cause : Cause) (info : HaltInfo)
deriving DecidableEq, Repr

/-- The whole state of the machine. -/
structure State where
  /-- The memory M (R20). -/
  mem    : Memory
  /-- The register file x (R24). -/
  regs   : RegFile
  /-- The run status (R34). -/
  status : Status
deriving DecidableEq, Repr

/-- Why `step` answers no next state. Both are raised by `step` alone, never by an instruction: "in a state whose status
is not RUNNING the core has no step" (R35). Safe: the machine stops where the spec says it stops (log 2). -/
inductive Fault where
  /-- A step was asked of a core that HLT has halted (R35). Raised by `step`; safe. -/
  | stepAfterHalt
  /-- A step was asked of a core that an abnormal halt has stopped (R35, R250). Raised by `step`; safe. -/
  | stepAfterAbnormalHalt (cause : Cause) (info : HaltInfo)
deriving DecidableEq, Repr

/-- Why the model gives an instruction no meaning. -/
inductive Refusal where
  /-- The instruction has no meaning yet. Raised by a refused arm of `exec`, of which this model has none; safe. -/
  | notModelled (mnemonic : String)
deriving DecidableEq, Repr

/-- The reset state with a memory image: every register 0, IP at the entry point, status RUNNING, the memory the image
(R22, R39, R42, R270). This is what asserting reset does, whatever the state was: "nothing survives it". -/
def State.resetWith (image : Memory) : State where
  mem := image
  regs := { ax := 0, bx := 0, cx := 0, dx := 0, sp := 0, ip := Config.entryPoint, flags := 0 }
  status := .running

/-- The machine right after reset, no image loaded: "0 in every word no one loaded" (R42). -/
def State.reset : State := State.resetWith []

end Sys2Proof.Machine
end

