-- ==== Sys2Proof/Machine/Ops.lean ====
section
/-! DEFINITION. The named operations over memory, registers and status, and the abnormal halt as one operation. -/

namespace Sys2Proof.Machine

/-! ### Memory -/

/-- The word at address key `k`, what an unlisted address reads as if no entry has it. -/
def Memory.lookup (k : Nat) : Memory → Word
  | [] => Config.unlistedWord
  | c :: m => if c.1 = k then c.2 else Memory.lookup k m

/-- `M[a]` (00_scope.md R10, 10_state.md R20). Every 16-bit address names an existing word (20_memory.md R53). -/
def Memory.read (m : Memory) (a : Word) : Word := Memory.lookup a.toNat m

/-- The memory with the word at key `k` set to `v`, its form kept: writing what an unlisted address reads as removes
the entry. -/
def Memory.put (k : Nat) (v : Word) : Memory → Memory
  | [] => if v = Config.unlistedWord then [] else [(k, v)]
  | c :: m =>
    if k < c.1 then if v = Config.unlistedWord then c :: m else (k, v) :: c :: m
    else if c.1 = k then if v = Config.unlistedWord then m else (k, v) :: m
    else c :: Memory.put k v m

/-- `MemWrite(a, 1, v)` (R10). No instruction performs it (20_memory.md R57): it is the host's, who places the memory
image (R22, R271). -/
def Memory.write (m : Memory) (a : Word) (v : Word) : Memory := Memory.put a.toNat v m

/-- `MemWrite(a, n, ws)` (R10): stores the words at `a`, `a + 1` and so on, addresses modulo 65536 (R53). -/
def Memory.writeWords (m : Memory) (a : Word) : List Word → Memory
  | [] => m
  | w :: ws => Memory.writeWords (m.write a w) (a + 1) ws

/-- `MemRead(a, n)` (R10): the `n` words at `a`, `a + 1` and so on, addresses modulo 65536. -/
def Memory.readWords (m : Memory) (a : Word) : Nat → List Word
  | 0 => []
  | n + 1 => m.read a :: Memory.readWords m (a + 1) n

/-- The memory image whose words from address 0 up are the given ones, at most 65536 of them, every other word being 0
(R22, R271). -/
def Memory.ofImage (ws : List Word) : Memory := Memory.writeWords [] 0 (ws.take Config.memWords)

/-! ### Registers -/

/-- `x[r]` (R9, R24). No register is hardwired to a value. -/
def RegFile.read (x : RegFile) : Reg → Word
  | .ax => x.ax
  | .bx => x.bx
  | .cx => x.cx
  | .dx => x.dx
  | .sp => x.sp
  | .ip => x.ip
  | .flags => x.flags

/-- `x[r] <- v` (R9, R24). -/
def RegFile.write (x : RegFile) (r : Reg) (v : Word) : RegFile :=
  match r with
  | .ax => { x with ax := v }
  | .bx => { x with bx := v }
  | .cx => { x with cx := v }
  | .dx => { x with dx := v }
  | .sp => { x with sp := v }
  | .ip => { x with ip := v }
  | .flags => { x with flags := v }

/-- `x[r]` in a state. -/
def State.readReg (s : State) (r : Reg) : Word := s.regs.read r

/-- `x[r] <- v` in a state. -/
def State.writeReg (s : State) (r : Reg) (v : Word) : State := { s with regs := s.regs.write r v }

/-- `pc`, another name for `x[IP]` (R9). -/
def State.pc (s : State) : Word := s.readReg .ip

/-- `x[IP] <- t` (R221). -/
def State.jumpTo (s : State) (t : Word) : State := s.writeReg .ip t

/-- `x[IP] <- (x[IP] + n) mod 65536`, from the value IP has now (40_cycle_and_hlt.md R143, R144). -/
def State.advanceIP (s : State) (n : Word) : State := s.jumpTo (s.pc + n)

/-! ### The run status -/

/-- `halt`: the normal end of a run (R11, R146). -/
def State.halt (s : State) : State := { s with status := .halted }

/-- The abnormal halt, `raise C(a, w)` (60_exceptions.md R240, R243): the status becomes FAULTED with the address of the
opcode word, which is IP, and the offending word; "no register and no memory word is changed". There is no return from
it (R250): the only way on is reset, `State.resetWith`. -/
def State.abnormalHalt (s : State) (e : DecodeError) : State :=
  { s with status := .faulted e.cause ⟨s.pc, e.word⟩ }

/-- Ends a step: the instruction's own effect, or the abnormal halt of the operand check that failed, in the state at
the start of the step, so that nothing has been written (R93, R143, R246). -/
def State.finish (s : State) : Except DecodeError State → Host.Outcome State Fault Refusal
  | .ok t => .next t
  | .error e => .next (s.abnormalHalt e)

/-- What the host reads of the block: the status and the seven registers, whenever the status is not RUNNING (10_state.md
R40). -/
def State.observe (s : State) : Option (Status × RegFile) :=
  match s.status with
  | .running => none
  | _ => some (s.status, s.regs)

end Sys2Proof.Machine
end

