-- ==== Sys2Proof/Machine/Alu.lean ====
section
/-! DEFINITION. The ALU's three operations on two words (41_mov_add_sub.md R177). The result is the low 16 bits of the
exact sum or difference, and no flag records what is lost. -/

namespace Sys2Proof.Machine

/-- Pass, the operation of MOV: the second operand (R177). -/
def aluPass (_ y : Word) : Word := y

/-- Add modulo 65536 (R177). -/
def aluAdd (x y : Word) : Word := x + y

/-- Subtract modulo 65536 (R177). -/
def aluSub (x y : Word) : Word := x - y

end Sys2Proof.Machine
end

