-- ==== Sys2Proof/Machine/Flags.lean ====
section
/-! DEFINITION. FLAGS: the one value an instruction computes for it and the two conditions that read it (10_state.md R29,
R30). There is no carry, zero, sign or overflow flag. -/

namespace Sys2Proof.Machine

/-- The equality comparator of CMP: all 16 bits of FLAGS, 0x0001 when the operands are the same word and 0x0000 when they
are not (42_cmp.md R202). -/
def equalFlag (p q : Word) : Word := if p = q then 1 else 0

/-- The condition of JE: the whole of FLAGS is 1 (R30, R222). -/
def State.flagsSayEqual (s : State) : Bool := s.readReg .flags == 1

/-- The condition of JNE: the whole of FLAGS is 0 (R30, R223). With any other value but 1 neither condition holds (R31). -/
def State.flagsSayNotEqual (s : State) : Bool := s.readReg .flags == 0

end Sys2Proof.Machine
end

