-- ==== Sys2Proof/Machine/Operands.lean ====
section
/-! DEFINITION. The operand forms: a register with an immediate, a register with a register, and the two tagged operands
of CMP. Every operand is read before anything is written, and an illegal operand word ends the step in the abnormal
halt with nothing written (40_cycle_and_hlt.md R143). -/

namespace Sys2Proof.Machine

/-- The value of an operand in a state: the register's current value, or the literal (42_cmp.md R200). -/
def State.operandValue (s : State) : Operand → Word
  | .reg r => s.readReg r
  | .imm v => v

/-- `resolve(t, v)` (R200). DESIGN CHOICE (log 14, safe): where R200 leaves it undefined, the answer is the decode error
that the decoder reports for the same two words (R95). -/
def State.resolve (s : State) (t v : Word) : Except DecodeError Word := (operandOf t v).map s.operandValue

/-- Format RI: `x[r] <- op(x[r], i)`, then IP advances by 3 from the value it has then (R143, R171 to R173). -/
def execRegImm (op : Word → Word → Word) (r i : Word) (s : State) : Host.Outcome State Fault Refusal :=
  s.finish do
    let d ← regOf r
    return (s.writeReg d (op (s.readReg d) i)).advanceIP 3

/-- Format RR: `x[d] <- op(x[d], x[s])`, both read before the write, then IP advances by 3 from the value it has then;
the destination's number is checked first (R143, R174 to R176, R247). -/
def execRegReg (op : Word → Word → Word) (r1 r2 : Word) (s : State) : Host.Outcome State Fault Refusal :=
  s.finish do
    let d ← regOf r1
    let src ← regOf r2
    return (s.writeReg d (op (s.readReg d) (s.readReg src))).advanceIP 3

/-- JE and JNE: to the target if the condition holds, else past this two-word instruction (R222, R223). -/
def execBranch (taken : Bool) (t : Word) (s : State) : Host.Outcome State Fault Refusal :=
  .next (if taken then s.jumpTo t else s.advanceIP 2)

end Sys2Proof.Machine
end

