-- ==== Sys2Proof/Machine/Arith.lean ====
section
/-! DEFINITION. MOV, ADD and SUB with an immediate and with a register (41_mov_add_sub.md R171 to R176). -/

namespace Sys2Proof.Machine

/-- MOV reg, imm (R171). -/
def execMovImm (r i : Word) (s : State) : Host.Outcome State Fault Refusal := execRegImm aluPass r i s

/-- ADD reg, imm (R172). -/
def execAddImm (r i : Word) (s : State) : Host.Outcome State Fault Refusal := execRegImm aluAdd r i s

/-- SUB reg, imm (R173). -/
def execSubImm (r i : Word) (s : State) : Host.Outcome State Fault Refusal := execRegImm aluSub r i s

/-- MOV reg, reg (R174). -/
def execMovReg (d r : Word) (s : State) : Host.Outcome State Fault Refusal := execRegReg aluPass d r s

/-- ADD reg, reg (R175). -/
def execAddReg (d r : Word) (s : State) : Host.Outcome State Fault Refusal := execRegReg aluAdd d r s

/-- SUB reg, reg (R176). -/
def execSubReg (d r : Word) (s : State) : Host.Outcome State Fault Refusal := execRegReg aluSub d r s

end Sys2Proof.Machine
end

