-- ==== Sys2Proof/Machine/Compare.lean ====
section
/-! DEFINITION. CMP (42_cmp.md R202). -/

namespace Sys2Proof.Machine

/-- CMP a, b: both operands are resolved, then FLAGS is written, then IP advances by 5 (R202). Its checks are, in order,
tag A, value A, tag B, value B (R247). -/
def execCmp (tA vA tB vB : Word) (s : State) : Host.Outcome State Fault Refusal :=
  s.finish do
    let p ← s.resolve tA vA
    let q ← s.resolve tB vB
    return (s.writeReg .flags (equalFlag p q)).advanceIP 5

end Sys2Proof.Machine
end

