-- ==== Sys2Proof/Machine/Control.lean ====
section
/-! DEFINITION. HLT, JMP, JE and JNE (40_cycle_and_hlt.md R146, 43_jumps.md R221 to R223). -/

namespace Sys2Proof.Machine

/-- HLT: `status <- HALTED`; no register is written, and IP is not advanced (R146). -/
def execHlt (s : State) : Host.Outcome State Fault Refusal := .next s.halt

/-- JMP addr: `x[IP] <- t` (R221). -/
def execJmp (t : Word) (s : State) : Host.Outcome State Fault Refusal := .next (s.jumpTo t)

/-- JE addr: taken if FLAGS is 1 (R222). -/
def execJe (t : Word) (s : State) : Host.Outcome State Fault Refusal := execBranch s.flagsSayEqual t s

/-- JNE addr: taken if FLAGS is 0 (R223). -/
def execJne (t : Word) (s : State) : Host.Outcome State Fault Refusal := execBranch s.flagsSayNotEqual t s

end Sys2Proof.Machine
end

