-- ==== Sys2Proof/Machine/Dispatch.lean ====
section
/-! DEFINITION. The meaning of each instruction, one arm per constructor (40_cycle_and_hlt.md R141). -/

namespace Sys2Proof.Machine

/-- The effect of one instruction (R141). Whether the core may take a step at all is `step`'s to ask (R35). -/
def exec (i : Instr) (s : State) : Host.Outcome State Fault Refusal :=
  match i with
  | .hlt => Sys2Proof.Machine.execHlt s
  | .movImm r v => Sys2Proof.Machine.execMovImm r v s
  | .addImm r v => Sys2Proof.Machine.execAddImm r v s
  | .subImm r v => Sys2Proof.Machine.execSubImm r v s
  | .movReg d r => Sys2Proof.Machine.execMovReg d r s
  | .addReg d r => Sys2Proof.Machine.execAddReg d r s
  | .subReg d r => Sys2Proof.Machine.execSubReg d r s
  | .jmp t => Sys2Proof.Machine.execJmp t s
  | .cmp ta va tb vb => Sys2Proof.Machine.execCmp ta va tb vb s
  | .je t => Sys2Proof.Machine.execJe t s
  | .jne t => Sys2Proof.Machine.execJne t s

end Sys2Proof.Machine
end

