-- ==== Sys2Proof/Machine/Fetch.lean ====
section
/-! DEFINITION. The fetch of an instruction's words through the memory fetch port (10_state.md R38, 40_cycle_and_hlt.md
R142), and the placing of an instruction's words where the next fetch finds them. -/

namespace Sys2Proof.Machine

/-- Word `i` of the instruction at address `a`: `M[(a + i) mod 65536]` (20_memory.md R53, R56). -/
def Memory.instrWord (m : Memory) (a : Word) (i : Nat) : Word := m.read (a + BitVec.ofNat 16 i)

/-- `decode(M, a)` (30_encoding.md R95). -/
def Memory.decodeAt (m : Memory) (a : Word) : Except DecodeError Instr := decode (m.instrWord a)

/-- The addresses the core presents at the fetch port in a step with IP at `a`, in order: `a`, then `a + 1` to `a + k`
where `k` is the arity of the opcode at `a`; none beyond `a` where that word is no opcode (R38, R142). -/
def Memory.fetchAddrs (m : Memory) (a : Word) : List Word :=
  match opcodeLength? (m.read a) with
  | none => [a]
  | some n => (List.range n).map fun i => a + BitVec.ofNat 16 i

/-- The words of an instruction as the opcode table numbers their bits, up to the longest instruction; every bit from
`nbits` on is 0. -/
def tableWords (nbits w : Nat) : List Word := (List.range Config.maxLength).map (tableWord nbits w)

/-- A memory with an instruction's words stored at address `a` and on, up to the longest instruction. -/
def Memory.placeAt (m : Memory) (a : Word) (nbits w : Nat) : Memory := m.writeWords a (tableWords nbits w)

end Sys2Proof.Machine
end

