-- ==== Sys2Proof/Machine/Step.lean ====
section
/-! DEFINITION. One step of the core (40_cycle_and_hlt.md R141). -/

namespace Sys2Proof.Machine

/-- The step function (R141): while the status is RUNNING, decode at IP and take the abnormal halt or the instruction's
effect. In any other status the core has no step (10_state.md R35), which is a fault with the status in its name. -/
def step (s : State) : Host.Outcome State Fault Refusal :=
  match s.status with
  | .halted => .fault .stepAfterHalt
  | .faulted c info => .fault (.stepAfterAbnormalHalt c info)
  | .running =>
    match s.mem.decodeAt s.pc with
    | .error e => .next (s.abnormalHalt e)
    | .ok i => exec i s

/-- `s` with an instruction whose bits are `w` stored at IP, where `step` fetches, and the status RUNNING, without which
there is no fetch: it stands for the host's loading of the memory image (R22, R271; log 3, log 8). -/
def State.withFetchWord (s : State) (nbits w : Nat) : State :=
  { s with mem := s.mem.placeAt s.pc nbits w, status := .running }

end Sys2Proof.Machine
end

