-- ==== Sys2Proof/Machine/Assembler.lean ====
section
/-! DEFINITION. The assembler, the toolchain that the source calls the Encoder (30_encoding.md Part B, R105 to R124): a
total function from lines of text to a memory image or one error. Nothing of the machine depends on it (00_scope.md
R4). -/

namespace Sys2Proof.Machine

/-- The eight mnemonics (R110). -/
inductive Mnemonic where
  | hlt
  | mov
  | add
  | sub
  | jmp
  | cmp
  | je
  | jne
deriving DecidableEq, Repr

/-- What a valid operand token is (R109). -/
inductive Token where
  /-- A register name. -/
  | reg (r : Reg)
  /-- An immediate: the number its digits and its sign spell. -/
  | imm (n : Int)
deriving DecidableEq, Repr

/-- The kinds of assembly error (R118, R122). A kind and a line number are all a model compares; the message text is "any
value" and left out (R118, U13; log 7). -/
inductive AsmErrorKind where
  /-- A line that cannot be split into a mnemonic and the operands it requires (R118). -/
  | syntaxError
  /-- A mnemonic that is not one of the eight (R117). -/
  | unknownInstruction
  /-- A register or immediate slot whose token is of neither kind or of the wrong one (R118). -/
  | invalidOperand
  /-- The instruction does not fit below address 65536 (R122). -/
  | memoryExhausted
deriving DecidableEq, Repr

/-- One assembly error: the 1-based number of the physical line and the kind (R119). -/
structure AsmError where
  /-- The 1-based line number. -/
  line : Nat
  /-- The kind of error. -/
  kind : AsmErrorKind
deriving DecidableEq, Repr

/-! ### Lines and tokens -/

/-- Strips "any suffix starting at the first occurrence of //" (R106). -/
def stripComment : List Char → List Char
  | [] => []
  | '/' :: '/' :: _ => []
  | c :: cs => c :: stripComment cs

/-- Whitespace is space and horizontal tab (R123 g). -/
def isBlank (c : Char) : Bool := c == ' ' || c == '\t'

/-- Trims leading and trailing whitespace (R106). -/
def trim (cs : List Char) : List Char := ((cs.dropWhile isBlank).reverse.dropWhile isBlank).reverse

/-- What is left of a physical line after its comment and its outer whitespace are gone (R106). -/
def cleanLine (line : String) : List Char := trim (stripComment line.toList)

/-- The mnemonic token of a cleaned line: the text up to the first whitespace (R107). -/
def mnemonicToken (cs : List Char) : List Char := cs.takeWhile fun c => !isBlank c

/-- The operand text of a cleaned line: the rest, trimmed (R107). -/
def operandText (cs : List Char) : List Char := trim (cs.dropWhile fun c => !isBlank c)

/-- The operand tokens of an operand text: none if it is empty; else the part before the first comma and, if there is a
comma, the part after it, each trimmed (R107, R123 e). -/
def operandTokens (cs : List Char) : List (List Char) :=
  if cs = [] then []
  else
    match cs.dropWhile (· != ',') with
    | [] => [trim cs]
    | _ :: rest => [trim (cs.takeWhile (· != ',')), trim rest]

/-- A token as names are compared: upper-cased (R108; log 5). -/
def upper (cs : List Char) : String := String.ofList (cs.map Char.toUpper)

/-- The mnemonic a token spells (R108, R110). -/
def mnemonicOf? (cs : List Char) : Option Mnemonic :=
  match upper cs with
  | "HLT" => some .hlt
  | "MOV" => some .mov
  | "ADD" => some .add
  | "SUB" => some .sub
  | "JMP" => some .jmp
  | "CMP" => some .cmp
  | "JE" => some .je
  | "JNE" => some .jne
  | _ => none

/-- The register a token names (R108, R109). -/
def regNamed? (cs : List Char) : Option Reg :=
  match upper cs with
  | "AX" => some .ax
  | "BX" => some .bx
  | "CX" => some .cx
  | "DX" => some .dx
  | "SP" => some .sp
  | "IP" => some .ip
  | "FLAGS" => some .flags
  | _ => none

/-- A decimal digit. -/
def isDecimal (c : Char) : Bool := decide ('0'.toNat ≤ c.toNat) && decide (c.toNat ≤ '9'.toNat)

/-- The number a string of decimal digits spells. -/
def decimalValue (cs : List Char) : Nat := cs.foldl (fun n c => 10 * n + (c.toNat - '0'.toNat)) 0

/-- A non-empty string of decimal digits, as its number. -/
def digits? (cs : List Char) : Option Nat :=
  if cs ≠ [] ∧ cs.all isDecimal = true then some (decimalValue cs) else none

/-- An immediate token: decimal digits, "optionally preceded by a single -"; a lone `-` is none (R109, R123 d). -/
def immediate? : List Char → Option Int
  | '-' :: cs => (digits? cs).map fun n => -(n : Int)
  | cs => (digits? cs).map fun n => (n : Int)

/-- Operand classification (R109): an immediate, else a register name, else an error. -/
def classify (cs : List Char) : Except AsmErrorKind Token :=
  match immediate? cs with
  | some n => .ok (.imm n)
  | none =>
    match regNamed? cs with
    | some r => .ok (.reg r)
    | none => .error .invalidOperand

/-- val(imm): the number reduced modulo 65536 (R112). -/
def immWord (n : Int) : Word := BitVec.ofInt 16 n

/-! ### What each mnemonic emits -/

/-- A token that must be a register name (R114, R116). -/
def needReg : Token → Except AsmErrorKind Reg
  | .reg r => .ok r
  | .imm _ => .error .invalidOperand

/-- A token that must be an immediate (R115). -/
def needImm : Token → Except AsmErrorKind Int
  | .imm n => .ok n
  | .reg _ => .error .invalidOperand

/-- The number of operands a mnemonic requires (R110). -/
def Mnemonic.operandCount : Mnemonic → Nat
  | .hlt => 0
  | .mov | .add | .sub | .cmp => 2
  | .jmp | .je | .jne => 1

/-- MOV, ADD and SUB with their second operand, which "selects opcode variant accordingly" (R110, R114). -/
def twoForms (imm reg : Word → Word → Instr) (a b : List Char) : Except AsmErrorKind Instr := do
  let r ← (classify a).bind needReg
  match ← classify b with
  | .imm n => return imm r.number (immWord n)
  | .reg r2 => return reg r.number r2.number

/-- CMP: tag 0 and the first register, then tag 1 and the immediate or tag 0 and the second register (R110, R116). -/
def compareForms (a b : List Char) : Except AsmErrorKind Instr := do
  let r ← (classify a).bind needReg
  match ← classify b with
  | .imm n => return .cmp 0 r.number 1 (immWord n)
  | .reg r2 => return .cmp 0 r.number 0 r2.number

/-- JMP, JE and JNE with their one operand, an immediate (R110, R115). -/
def jumpForm (jump : Word → Instr) (a : List Char) : Except AsmErrorKind Instr := do
  return jump (immWord (← (classify a).bind needImm))

/-- The instruction a mnemonic with its operand tokens spells; operand 1 is checked before operand 2 (R110, R113 to
R116, R123 f). A wrong number of operands is a syntax error (R123 b). -/
def instrOf : Mnemonic → List (List Char) → Except AsmErrorKind Instr
  | .hlt, [] => .ok .hlt
  | .mov, [a, b] => twoForms .movImm .movReg a b
  | .add, [a, b] => twoForms .addImm .addReg a b
  | .sub, [a, b] => twoForms .subImm .subReg a b
  | .cmp, [a, b] => compareForms a b
  | .jmp, [a] => jumpForm .jmp a
  | .je, [a] => jumpForm .je a
  | .jne, [a] => jumpForm .jne a
  | _, _ => .error .syntaxError

/-- The checks of a mnemonic's operand tokens that come before any is classified: their number, then that none is empty
(R123 b, c; log 6). -/
def splitOk (m : Mnemonic) (ts : List (List Char)) : Bool :=
  decide (ts.length = m.operandCount) && ts.all fun t => !t.isEmpty

/-- One physical line: nothing if it is blank or a comment, else the instruction it spells or the kind of its error,
the mnemonic being checked first (R106, R117, R123 a). -/
def assembleLine (line : String) : Except AsmErrorKind (Option Instr) :=
  let cs := cleanLine line
  if cs = [] then .ok none
  else
    match mnemonicOf? (mnemonicToken cs) with
    | none => .error .unknownInstruction
    | some m =>
      let ts := operandTokens (operandText cs)
      if splitOk m ts then (instrOf m ts).map some else .error .syntaxError

/-! ### The write cursor -/

/-- The assembler at work: the cursor, where the next word goes, and the memory written so far (R121). -/
structure AsmState where
  /-- The write cursor, the number of words emitted. -/
  cursor : Nat
  /-- The memory image so far. -/
  image  : Memory
deriving DecidableEq, Repr

/-- Before the first line: the cursor at 0 and every word 0 (R121, 70_reset_and_hazards.md R271). -/
def AsmState.start : AsmState := { cursor := 0, image := [] }

/-- Emits an instruction's words at the cursor and advances it by their number; an error where they do not all fit below
address 65536, and nothing wraps (R121, R122). -/
def AsmState.emit (st : AsmState) (i : Instr) : Except AsmErrorKind AsmState :=
  if st.cursor + (encode i).length ≤ Config.memWords then
    .ok { cursor := st.cursor + (encode i).length
          image := st.image.writeWords (BitVec.ofNat 16 st.cursor) (encode i) }
  else .error .memoryExhausted

/-- The effect of one physical line on the assembler: a skipped line "emits nothing, does not move the write cursor"
(R106). -/
def AsmState.line (st : AsmState) (text : String) : Except AsmErrorKind AsmState :=
  match assembleLine text with
  | .error k => .error k
  | .ok none => .ok st
  | .ok (some i) => st.emit i

/-- The lines in order, the first of them having number `n`; the first error wins (R119). -/
def assembleFrom (n : Nat) (st : AsmState) : List String → Except AsmError AsmState
  | [] => .ok st
  | text :: rest =>
    match st.line text with
    | .error k => .error ⟨n, k⟩
    | .ok st' => assembleFrom (n + 1) st' rest

/-- `assemble(lines)`: a memory image, or one error with its line number (R105). -/
def assemble (lines : List String) : Except AsmError Memory :=
  (assembleFrom 1 .start lines).map AsmState.image

/-- The instructions of a text that assembles, in order: one for each line that is not skipped (R120). -/
def spelledInstrs (lines : List String) : List Instr :=
  lines.filterMap fun text =>
    match assembleLine text with
    | .ok (some i) => some i
    | _ => none

end Sys2Proof.Machine
end

