-- ==== Sys2Proof/Machine/Run.lean ====
section
/-! DEFINITION. A run: steps until the status is no longer RUNNING (40_cycle_and_hlt.md R140, R148). A run need not end
(R149), so the executable form takes a bound of steps, which is harness and no state of the machine (R282). -/

namespace Sys2Proof.Machine

/-- At most `fuel` steps, fewer where the run ends before (R140, R282). -/
def runFor : Nat → State → State
  | 0, s => s
  | fuel + 1, s =>
    match step s with
    | .next t => runFor fuel t
    | _ => s

/-- The source's contract "execute(memory) -> final register snapshot": from reset with an image, what the host observes
after at most `fuel` steps; none while the run has not ended (R40, R148, R149). -/
def execute (image : Memory) (fuel : Nat) : Option (Status × RegFile) :=
  (runFor fuel (State.resetWith image)).observe

end Sys2Proof.Machine
end

