-- ==== Sys2Proof/Safety.lean ====
section
/-! DEFINITION. The terms claims use: which registers an instruction writes, runs and their ends, and the states that a
run can hold to. -/

namespace Sys2Proof.Machine

/-- The register an instruction names as its destination, if it names a legal one: the explicit destination of MOV, ADD
and SUB (10_state.md R26). -/
def destination? : Instr → Option Reg
  | .movImm r _ => Reg.ofNumber? r
  | .addImm r _ => Reg.ofNumber? r
  | .subImm r _ => Reg.ofNumber? r
  | .movReg d _ => Reg.ofNumber? d
  | .addReg d _ => Reg.ofNumber? d
  | .subReg d _ => Reg.ofNumber? d
  | .hlt => none
  | .jmp _ => none
  | .cmp _ _ _ _ => none
  | .je _ => none
  | .jne _ => none

/-- The column "writes" of R26's table. -/
def writtenRegs (i : Instr) : List Reg :=
  match i with
  | .hlt => []
  | .cmp _ _ _ _ => [.flags, .ip]
  | .jmp _ => [.ip]
  | .je _ => [.ip]
  | .jne _ => [.ip]
  | .movImm _ _ => (destination? i).toList ++ [.ip]
  | .addImm _ _ => (destination? i).toList ++ [.ip]
  | .subImm _ _ => (destination? i).toList ++ [.ip]
  | .movReg _ _ => (destination? i).toList ++ [.ip]
  | .addReg _ _ => (destination? i).toList ++ [.ip]
  | .subReg _ _ => (destination? i).toList ++ [.ip]

/-- The register an operand of CMP names: one under tag 0, none under tag 1 (R26, R200). -/
def operandRegs (t v : Word) : List Reg :=
  match operandOf t v with
  | .ok (.reg r) => [r]
  | _ => []

/-- The column "reads" of R26's table; IP is read by every instruction. -/
def readRegs (i : Instr) : List Reg :=
  match i with
  | .hlt => [.ip]
  | .movImm _ _ => [.ip]
  | .addImm _ _ => (destination? i).toList ++ [.ip]
  | .subImm _ _ => (destination? i).toList ++ [.ip]
  | .movReg _ r => (Reg.ofNumber? r).toList ++ [.ip]
  | .addReg _ r => (destination? i).toList ++ (Reg.ofNumber? r).toList ++ [.ip]
  | .subReg _ r => (destination? i).toList ++ (Reg.ofNumber? r).toList ++ [.ip]
  | .jmp _ => [.ip]
  | .cmp tA vA tB vB => operandRegs tA vA ++ operandRegs tB vB ++ [.ip]
  | .je _ => [.flags, .ip]
  | .jne _ => [.flags, .ip]

/-- Every word of memory reads as before. -/
def SameMemory (s t : State) : Prop := ∀ a : Word, t.mem.read a = s.mem.read a

/-- Every register but those listed holds what it held. -/
def SameRegsExcept (rs : List Reg) (s t : State) : Prop := ∀ r : Reg, r ∉ rs → t.readReg r = s.readReg r

/-- Nothing but the registers listed is changed: the other registers, every word of memory and the status are as before. -/
def ChangesOnly (rs : List Reg) (s t : State) : Prop :=
  SameRegsExcept rs s t ∧ SameMemory s t ∧ t.status = s.status

/-- The abnormal halt with cause `c` and offending word `w`: the status records them with the address in IP, and no
register and no word of memory is changed (60_exceptions.md R240, R243). -/
def HaltsAbnormally (c : Cause) (w : Word) (s t : State) : Prop :=
  t.status = .faulted c ⟨s.pc, w⟩ ∧ SameRegsExcept [] s t ∧ SameMemory s t

/-- `t` is reached from `s` by some number of steps. -/
inductive Steps : State → State → Prop where
  /-- No step. -/
  | refl (s : State) : Steps s s
  /-- One step more. -/
  | next {s t u : State} : Steps s t → step t = .next u → Steps s u

/-- The run from `s` ends in `t`: `t` is reached and its status is not RUNNING (40_cycle_and_hlt.md R148). -/
def RunEnds (s t : State) : Prop := Steps s t ∧ t.status ≠ .running

/-- The run from `s` never ends (R149). -/
def RunsForever (s : State) : Prop := ∀ t, Steps s t → t.status = .running

/-- The status of a state agrees with what stands at IP: after a normal halt IP is the address of a HLT, and after an
abnormal halt it is the recorded address, of words the decoder reports with the recorded cause and word (R148, R243). -/
def StatusExplained (s : State) : Prop :=
  match s.status with
  | .running => True
  | .halted => s.mem.decodeAt s.pc = .ok .hlt
  | .faulted c info => info.address = s.pc ∧ s.mem.decodeAt s.pc = .error ⟨c, info.word⟩

/-- The model's invariant: memory in canonical form, and the status explained by what stands at IP. -/
def Consistent (s : State) : Prop := s.mem.wf ∧ StatusExplained s

/-- FLAGS holds one of the two values CMP writes (10_state.md R29). -/
def FlagsIsBoolean (s : State) : Prop := s.readReg .flags = 0 ∨ s.readReg .flags = 1

end Sys2Proof.Machine
end

