-- ==== Sys2Proof/Certificates/Slice0/Obligations.lean ====
section
/-! DEFINITION. The statements for the provers. `R<n>` are the rules of spec/, `D<n>` its own decisions
(92_eei_decisions.md), `log <n>` a row of the assumption log. -/

open Sys2Proof Sys2Proof.Machine

/-! ### Reset and the memory image -/

/-- R42, R270: reset leaves every register 0, the status RUNNING and the memory the image; with no image loaded every
word is 0. -/
def Obligations.ResetZeroesRegistersAndRuns : Prop :=
  (∀ (image : Memory), (∀ r : Reg, (State.resetWith image).readReg r = 0) ∧
    (State.resetWith image).status = .running ∧
    ∀ a : Word, (State.resetWith image).mem.read a = image.read a) ∧
  State.reset.status = .running ∧ (∀ r : Reg, State.reset.readReg r = 0) ∧ ∀ a : Word, State.reset.mem.read a = 0

/-- R22, R271 (decision D13 makes the image a parameter): an image of up to 65536 words reads back word for word from
address 0 up, and every word past its end is 0. -/
def Obligations.LoadedImageReadsBack : Prop :=
  ∀ ws : List Word, ws.length ≤ 65536 → ∀ a : Word, (Memory.ofImage ws).read a = ws.getD a.toNat 0

/-! ### Encoding -/

/-- R7, the numbering of decision D1: the words 0 to 6, and no others, name a register, each its own. -/
def Obligations.RegisterNumbersAreZeroToSix : Prop :=
  (Reg.ofNumber? 0 = some .ax ∧ Reg.ofNumber? 1 = some .bx ∧ Reg.ofNumber? 2 = some .cx ∧ Reg.ofNumber? 3 = some .dx ∧
    Reg.ofNumber? 4 = some .sp ∧ Reg.ofNumber? 5 = some .ip ∧ Reg.ofNumber? 6 = some .flags) ∧
  ∀ w : Word, (w.toNat ≤ 6 ↔ ∃ r : Reg, w = r.number) ∧ ∀ r : Reg, (Reg.ofNumber? w = some r ↔ w = r.number)

/-- Decode and encode agree on every well-formed instruction: whatever words follow it, the words of its encoding decode
to it (R82 to R87, R95). -/
def Obligations.DecodeReadsBackEncode : Prop :=
  ∀ (i : Instr) (word : Nat → Word), i.wellFormed = true →
    (∀ k (hk : k < (encode i).length), word k = (encode i)[k]) → decode word = .ok i

/-- What the decoder answers is well-formed, and its encoding is the words that were there: no word is read two ways and
no bit is dropped (R81, R87, R95). -/
def Obligations.DecodedInstructionEncodesBack : Prop :=
  ∀ (i : Instr) (word : Nat → Word), decode word = .ok i →
    i.wellFormed = true ∧ ∀ k (hk : k < (encode i).length), word k = (encode i)[k]

/-- R92: UnknownOpcode, with the opcode word, is reported for the opcode words above 10 and for no others. -/
def Obligations.UnknownOpcodeIsExactlyAboveTen : Prop :=
  ∀ (word : Nat → Word) (w : Word),
    decode word = .error ⟨.unknownOpcode, w⟩ ↔ 10 < (word 0).toNat ∧ w = word 0

/-- R88: the length in words is fixed by the opcode word alone, and undefined above 10. -/
def Obligations.LengthIsFixedByOpcodeWord : Prop :=
  ∀ op : Word, (op.toNat = 0 → opcodeLength? op = some 1) ∧
    (1 ≤ op.toNat → op.toNat ≤ 6 → opcodeLength? op = some 3) ∧
    (op.toNat = 7 ∨ op.toNat = 9 ∨ op.toNat = 10 → opcodeLength? op = some 2) ∧
    (op.toNat = 8 → opcodeLength? op = some 5) ∧
    (10 < op.toNat → opcodeLength? op = none)

/-- R247 (the order is the spec's own decision D18, the checks D3 and D4): the first illegal operand word, in ascending
word order, is the one reported. -/
def Obligations.FirstIllegalOperandWordIsReported : Prop :=
  ∀ word : Nat → Word,
    (1 ≤ (word 0).toNat → (word 0).toNat ≤ 6 → 6 < (word 1).toNat →
      decode word = .error ⟨.invalidRegister, word 1⟩) ∧
    (4 ≤ (word 0).toNat → (word 0).toNat ≤ 6 → (word 1).toNat ≤ 6 → 6 < (word 2).toNat →
      decode word = .error ⟨.invalidRegister, word 2⟩) ∧
    ((word 0).toNat = 8 → 1 < (word 1).toNat → decode word = .error ⟨.invalidTag, word 1⟩) ∧
    ((word 0).toNat = 8 → (word 1).toNat = 0 → 6 < (word 2).toNat →
      decode word = .error ⟨.invalidRegister, word 2⟩) ∧
    ((word 0).toNat = 8 → operandOk (word 1) (word 2) = true → 1 < (word 3).toNat →
      decode word = .error ⟨.invalidTag, word 3⟩) ∧
    ((word 0).toNat = 8 → operandOk (word 1) (word 2) = true → (word 3).toNat = 0 → 6 < (word 4).toNat →
      decode word = .error ⟨.invalidRegister, word 4⟩)

/-- R96, R142: the decoder reads the words of the instruction, as many as its opcode word fixes, and no other. -/
def Obligations.DecoderReadsOnlyItsOwnWords : Prop :=
  ∀ word word' : Nat → Word, word 0 = word' 0 →
    (∀ n, opcodeLength? (word 0) = some n → ∀ k < n, word k = word' k) → decode word = decode word'

/-- A few words written out from the format tables decode to the instructions they stand for (R82 to R87; the vectors
M1, A1, SR5, J1, CP8 and X2 of 95_test_vectors.md, whose register numbers rest on decision D1). -/
def Obligations.WrittenOutWordsDecode : Prop :=
  decodeWords [0] = .ok .hlt ∧ decodeWords [1, 0, 5] = .ok (.movImm 0 5) ∧
  decodeWords [2, 0, 2] = .ok (.addImm 0 2) ∧ decodeWords [6, 5, 5] = .ok (.subReg 5 5) ∧
  decodeWords [7, 9] = .ok (.jmp 9) ∧ decodeWords [8, 1, 9, 0, 2] = .ok (.cmp 1 9 0 2) ∧
  decodeWords [65535] = .error ⟨.unknownOpcode, 65535⟩

/-! ### The step -/

/-- R141: while the status is RUNNING a step is the effect of the instruction at IP. The second clause starts from the
words in memory: where IP and the addresses after it, modulo 65536 (R53, decision D5), hold the encoding of a well-formed
instruction, the step is that instruction's. -/
def Obligations.StepRunsTheDecodedInstruction : Prop :=
  (∀ (s : State) (i : Instr), s.status = .running → s.mem.decodeAt s.pc = .ok i → step s = exec i s) ∧
  ∀ (s : State) (i : Instr), s.status = .running → i.wellFormed = true →
    (∀ k (hk : k < (encode i).length), s.mem.read (s.pc + BitVec.ofNat 16 k) = (encode i)[k]) → step s = exec i s

/-- R240: where the decoder reports an error at IP, the step takes the abnormal halt: the status records the cause, IP and
the offending word, no register, IP included, and no memory word is changed, and the loop stops: there is no step after
it. -/
def Obligations.StepTakesTheAbnormalHalt : Prop :=
  ∀ (s : State) (e : DecodeError), s.status = .running → s.mem.decodeAt s.pc = .error e →
    ∃ t, step s = .next t ∧ HaltsAbnormally e.cause e.word s t ∧ ∀ u, step t ≠ .next u

/-- R241: a word above 10 at IP is the cause UnknownOpcode, recorded with IP and the word, and no operand word is
fetched. -/
def Obligations.UnknownOpcodeHaltsWithoutOperandFetch : Prop :=
  ∀ s : State, s.status = .running → 10 < (s.mem.read s.pc).toNat →
    s.mem.fetchAddrs s.pc = [s.pc] ∧
    ∃ t, step s = .next t ∧ HaltsAbnormally .unknownOpcode (s.mem.read s.pc) s t

/-- R150, R281: a RUNNING core always has exactly one next state: it never faults and never stalls. -/
def Obligations.RunningCoreAlwaysHasOneNextState : Prop :=
  ∀ s : State, s.status = .running → ∃ t, step s = .next t ∧ ∀ u, step s = .next u → u = t

/-- R35 (the spec's own decision D15; the model's stop is log 2): a core that has halted, normally or abnormally, has no
step, so nothing of it changes. -/
def Obligations.EndedCoreHasNoStep : Prop :=
  ∀ s : State, (s.status = .halted → step s = .fault .stepAfterHalt) ∧
    ∀ c info, s.status = .faulted c info → step s = .fault (.stepAfterAbnormalHalt c info)

/-- The invariant that every step keeps: memory in canonical form (log 1), and, once a run has ended, IP at the HLT or at
the words that the recorded cause and word report (R148, R243). -/
def Obligations.ConsistencyIsKeptByEveryStep : Prop :=
  ∀ s t : State, Consistent s → step s = .next t → Consistent t

/-- The invariant holds at reset, whatever well-formed image is loaded. -/
def Obligations.ConsistencyHoldsAtReset : Prop :=
  Consistent State.reset ∧ ∀ image : Memory, image.wf → Consistent (State.resetWith image)

/-- R23, R58: along a whole run every word of memory reads as it did at its start, and the memory is the same data. -/
def Obligations.MemoryIsConstantThroughoutARun : Prop :=
  ∀ s t : State, Steps s t → SameMemory s t ∧ t.mem = s.mem

/-- The "writes" column of R26: the frame of every instruction, for all operand words. -/
def Obligations.InstructionWritesOnlyItsListedRegisters : Prop :=
  ∀ (i : Instr) (s t : State), exec i s = .next t → SameRegsExcept (writtenRegs i) s t ∧ SameMemory s t

/-- The "reads" column of R26: two states that agree on the registers an instruction reads leave the registers it writes
alike, and end in the same status if they began in the same. -/
def Obligations.InstructionReadsOnlyItsListedRegisters : Prop :=
  ∀ (i : Instr) (s s' t t' : State), i.wellFormed = true → (∀ r ∈ readRegs i, s.readReg r = s'.readReg r) →
    exec i s = .next t → exec i s' = .next t' →
    (∀ r ∈ writtenRegs i, t.readReg r = t'.readReg r) ∧ (s.status = s'.status → t.status = t'.status)

/-- R145: a step changes at most one register besides IP, and changes the status or registers, never both. -/
def Obligations.StepChangesStatusOrRegistersNeverBoth : Prop :=
  ∀ s t : State, step s = .next t →
    (t.status = s.status ∨ ∀ r, t.readReg r = s.readReg r) ∧ ∃ r, SameRegsExcept [r, .ip] s t

/-- R32, R205: SP changes only by an instruction that names it as its destination, and FLAGS only by CMP or by an
instruction that names it as its destination. -/
def Obligations.FlagsAndStackPointerChangeOnlyByName : Prop :=
  ∀ (s t : State) (i : Instr), s.mem.decodeAt s.pc = .ok i → step s = .next t →
    (destination? i ≠ some .sp → t.readReg .sp = s.readReg .sp) ∧
    (destination? i ≠ some .flags → (∀ tA vA tB vB, i ≠ .cmp tA vA tB vB) → t.readReg .flags = s.readReg .flags)

/-- R29: FLAGS holds 0 or 1 and keeps doing so through every step whose instruction does not name it as its destination. -/
def Obligations.FlagsStaysBooleanUnlessNamed : Prop :=
  ∀ (s t : State), FlagsIsBoolean s → step s = .next t →
    (∀ i, s.mem.decodeAt s.pc = .ok i → destination? i ≠ some .flags) → FlagsIsBoolean t

/-- R144: an instruction that neither halts nor sets IP itself moves IP past its own words, modulo 65536 (R53, decision
D5): all but HLT, JMP, a taken JE or JNE, and an instruction with IP as its destination. -/
def Obligations.SequentialInstructionsAdvancePastTheirWords : Prop :=
  ∀ (i : Instr) (s : State), i.wellFormed = true → i ≠ .hlt → (∀ a, i ≠ .jmp a) →
    (∀ a, i = .je a → s.readReg .flags ≠ 1) → (∀ a, i = .jne a → s.readReg .flags ≠ 0) →
    destination? i ≠ some .ip →
    ∃ t, exec i s = .next t ∧ t.pc.toNat = (s.pc.toNat + (encode i).length) % 65536

/-- R246: the abnormal halt is precise: the registers and the memory are those of the start of the step, the recorded
address is IP, and the words there are what the decoder reports so. -/
def Obligations.AbnormalHaltIsPrecise : Prop :=
  ∀ (s t : State) (c : Cause) (info : HaltInfo), step s = .next t → t.status = .faulted c info →
    HaltsAbnormally c info.word s t ∧ info.address = s.pc ∧ s.mem.decodeAt s.pc = .error ⟨c, info.word⟩

/-- R242: once the opcode word is recognised as 0, 7, 9 or 10 the step is no abnormal halt. -/
def Obligations.HaltAndJumpsAlwaysComplete : Prop :=
  ∀ s : State, s.status = .running →
    (s.mem.read s.pc = 0 ∨ s.mem.read s.pc = 7 ∨ s.mem.read s.pc = 9 ∨ s.mem.read s.pc = 10) →
    ∃ t, step s = .next t ∧ ∀ c info, t.status ≠ .faulted c info

/-- R38, R142: a step depends on the registers and on the words at the addresses the core presents at the fetch port, and
on no other word of memory. -/
def Obligations.StepDependsOnlyOnFetchedWords : Prop :=
  ∀ s s' : State, s.status = .running → s'.status = .running → s.regs = s'.regs →
    (∀ a ∈ s.mem.fetchAddrs s.pc, s'.mem.read a = s.mem.read a) →
    ∃ t t', step s = .next t ∧ step s' = .next t' ∧ t.regs = t'.regs ∧ t.status = t'.status

/-! ### HLT and the jumps -/

/-- R146: HLT, the single word 0, sets the status to HALTED and changes nothing else: no register, IP and FLAGS included,
and no memory. -/
def Obligations.HltHaltsAndChangesNothingElse : Prop :=
  encode .hlt = [0] ∧ ∀ s : State, ∃ t, exec .hlt s = .next t ∧ t.status = .halted ∧ SameRegsExcept [] s t ∧ SameMemory s t

/-- R221: JMP loads IP with its operand word, whatever it is, and changes nothing else; a jump to itself leaves the whole
state as it is. -/
def Obligations.JmpLoadsIP : Prop :=
  ∀ (s : State) (a : Word), encode (.jmp a) = [7, a] ∧ (∃ t, exec (.jmp a) s = .next t ∧ t.pc = a ∧ ChangesOnly [.ip] s t) ∧
    (a = s.pc → exec (.jmp a) s = .next s)

/-- R222: JE is taken when the whole of FLAGS is 1, and otherwise moves IP past its two words; it changes IP alone. -/
def Obligations.JeJumpsWhenFlagsIsOne : Prop :=
  ∀ (s : State) (a : Word), encode (.je a) = [9, a] ∧ ∃ t, exec (.je a) s = .next t ∧
    (s.readReg .flags = 1 → t.pc = a) ∧
    (s.readReg .flags ≠ 1 → t.pc.toNat = (s.pc.toNat + 2) % 65536) ∧ ChangesOnly [.ip] s t

/-- R223: JNE is taken when the whole of FLAGS is 0, and otherwise moves IP past its two words; it changes IP alone. -/
def Obligations.JneJumpsWhenFlagsIsZero : Prop :=
  ∀ (s : State) (a : Word), encode (.jne a) = [10, a] ∧ ∃ t, exec (.jne a) s = .next t ∧
    (s.readReg .flags = 0 → t.pc = a) ∧
    (s.readReg .flags ≠ 0 → t.pc.toNat = (s.pc.toNat + 2) % 65536) ∧ ChangesOnly [.ip] s t

/-- R31, R223 (the whole-register test is the spec's own decision D7): with FLAGS 0 or 1 exactly one of JE and JNE to a
target off the sequential path goes there; with any other value neither does. -/
def Obligations.BranchesAreComplementsOnlyOnZeroAndOne : Prop :=
  ∀ (s : State) (a : Word), a ≠ s.pc + 2 → ∃ t u, exec (.je a) s = .next t ∧ exec (.jne a) s = .next u ∧
    (FlagsIsBoolean s → (t.pc = a ↔ u.pc ≠ a)) ∧ (¬ FlagsIsBoolean s → t.pc ≠ a ∧ u.pc ≠ a)

/-! ### MOV, ADD, SUB

Each statement is its rule whole, in the rule's own clauses: the result, the frame, the clause for IP as the destination (3
is added to the written value; the spec's decision D6 stands behind it) and the clause for a register number above 6
(decision D3 stands behind it). -/

/-- R171: MOV reg, imm. -/
def Obligations.MovImmediateLoadsRegister : Prop :=
  ∀ (s : State) (i : Word), (∀ r : Word, encode (.movImm r i) = [1, r, i]) ∧
    (∀ d : Reg, ∃ t, exec (.movImm d.number i) s = .next t ∧
      (t.readReg d).toNat = (i.toNat + if d = .ip then 3 else 0) % 65536 ∧
      (d ≠ .ip → t.pc.toNat = (s.pc.toNat + 3) % 65536) ∧ ChangesOnly [d, .ip] s t) ∧
    ∀ r : Word, 6 < r.toNat → ∃ t, exec (.movImm r i) s = .next t ∧ HaltsAbnormally .invalidRegister r s t

/-- R172: ADD reg, imm. -/
def Obligations.AddImmediateAddsModulo65536 : Prop :=
  ∀ (s : State) (i : Word), (∀ r : Word, encode (.addImm r i) = [2, r, i]) ∧
    (∀ d : Reg, ∃ t, exec (.addImm d.number i) s = .next t ∧
      (t.readReg d).toNat = ((s.readReg d).toNat + i.toNat + if d = .ip then 3 else 0) % 65536 ∧
      (d ≠ .ip → t.pc.toNat = (s.pc.toNat + 3) % 65536) ∧ ChangesOnly [d, .ip] s t) ∧
    ∀ r : Word, 6 < r.toNat → ∃ t, exec (.addImm r i) s = .next t ∧ HaltsAbnormally .invalidRegister r s t

/-- R173: SUB reg, imm. The remainder is the non-negative one (R8). -/
def Obligations.SubImmediateSubtractsModulo65536 : Prop :=
  ∀ (s : State) (i : Word), (∀ r : Word, encode (.subImm r i) = [3, r, i]) ∧
    (∀ d : Reg, ∃ t, exec (.subImm d.number i) s = .next t ∧
      ((t.readReg d).toNat : Int) =
        (((s.readReg d).toNat : Int) - (i.toNat : Int) + if d = .ip then 3 else 0) % 65536 ∧
      (d ≠ .ip → t.pc.toNat = (s.pc.toNat + 3) % 65536) ∧ ChangesOnly [d, .ip] s t) ∧
    ∀ r : Word, 6 < r.toNat → ∃ t, exec (.subImm r i) s = .next t ∧ HaltsAbnormally .invalidRegister r s t

/-- R174: MOV reg, reg. A source that is IP gives the address of the instruction's own opcode word. -/
def Obligations.MovRegisterCopiesRegister : Prop :=
  ∀ s : State, (∀ d r : Word, encode (.movReg d r) = [4, d, r]) ∧
    (∀ d r : Reg, ∃ t, exec (.movReg d.number r.number) s = .next t ∧
      (t.readReg d).toNat = ((s.readReg r).toNat + if d = .ip then 3 else 0) % 65536 ∧
      (d ≠ .ip → t.pc.toNat = (s.pc.toNat + 3) % 65536) ∧ ChangesOnly [d, .ip] s t) ∧
    (∀ d r : Word, 6 < d.toNat → ∃ t, exec (.movReg d r) s = .next t ∧ HaltsAbnormally .invalidRegister d s t) ∧
    ∀ (d : Reg) (r : Word), 6 < r.toNat →
      ∃ t, exec (.movReg d.number r) s = .next t ∧ HaltsAbnormally .invalidRegister r s t

/-- R175: ADD reg, reg, both registers read before the destination is written. -/
def Obligations.AddRegisterAddsModulo65536 : Prop :=
  ∀ s : State, (∀ d r : Word, encode (.addReg d r) = [5, d, r]) ∧
    (∀ d r : Reg, ∃ t, exec (.addReg d.number r.number) s = .next t ∧
      (t.readReg d).toNat =
        ((s.readReg d).toNat + (s.readReg r).toNat + if d = .ip then 3 else 0) % 65536 ∧
      (d ≠ .ip → t.pc.toNat = (s.pc.toNat + 3) % 65536) ∧ ChangesOnly [d, .ip] s t) ∧
    (∀ d r : Word, 6 < d.toNat → ∃ t, exec (.addReg d r) s = .next t ∧ HaltsAbnormally .invalidRegister d s t) ∧
    ∀ (d : Reg) (r : Word), 6 < r.toNat →
      ∃ t, exec (.addReg d.number r) s = .next t ∧ HaltsAbnormally .invalidRegister r s t

/-- R176: SUB reg, reg, both registers read before the destination is written. -/
def Obligations.SubRegisterSubtractsModulo65536 : Prop :=
  ∀ s : State, (∀ d r : Word, encode (.subReg d r) = [6, d, r]) ∧
    (∀ d r : Reg, ∃ t, exec (.subReg d.number r.number) s = .next t ∧
      ((t.readReg d).toNat : Int) =
        (((s.readReg d).toNat : Int) - ((s.readReg r).toNat : Int) + if d = .ip then 3 else 0) % 65536 ∧
      (d ≠ .ip → t.pc.toNat = (s.pc.toNat + 3) % 65536) ∧ ChangesOnly [d, .ip] s t) ∧
    (∀ d r : Word, 6 < d.toNat → ∃ t, exec (.subReg d r) s = .next t ∧ HaltsAbnormally .invalidRegister d s t) ∧
    ∀ (d : Reg) (r : Word), 6 < r.toNat →
      ∃ t, exec (.subReg d.number r) s = .next t ∧ HaltsAbnormally .invalidRegister r s t

/-- R178 (the spec's own decision D6): IP as a destination ends 3 past the value the instruction wrote to it; `a` is the
address of the instruction. -/
def Obligations.IPAsDestinationEndsThreePastTheWrittenValue : Prop :=
  ∀ (s : State) (i : Word) (r : Reg),
    (∃ t, exec (.movImm 5 i) s = .next t ∧ t.pc = i + 3) ∧
    (∃ t, exec (.addImm 5 i) s = .next t ∧ t.pc = s.pc + i + 3) ∧
    (∃ t, exec (.subImm 5 i) s = .next t ∧ t.pc = s.pc - i + 3) ∧
    (∃ t, exec (.movReg 5 r.number) s = .next t ∧ t.pc = s.readReg r + 3) ∧
    (∃ t, exec (.addReg 5 r.number) s = .next t ∧ t.pc = s.pc + s.readReg r + 3) ∧
    (∃ t, exec (.subReg 5 r.number) s = .next t ∧ t.pc = s.pc - s.readReg r + 3) ∧
    ∃ t, exec (.subReg 5 5) s = .next t ∧ t.pc = 3

/-- R177 (wrap-around is the spec's own decision D8): `SUB r, i` has the same effect as `ADD r, (65536 - i) mod 65536`,
in every state and for every register-number word, legal or not. -/
def Obligations.SubImmediateIsAddOfTheComplement : Prop :=
  ∀ (s : State) (r i j : Word), j.toNat = (65536 - i.toNat) % 65536 → exec (.subImm r i) s = exec (.addImm r j) s

/-! ### CMP -/

/-- `resolve` gives a register's current value under tag 0 and the word itself under tag 1, as R200 says. The last two
clauses are the model's choice, not the rule's (log 14): where R200 leaves `resolve` undefined, the decoder having refused
the words first, `State.resolve` answers the error the decoder reports. -/
def Obligations.ResolveFollowsTheTag : Prop :=
  ∀ (s : State) (v : Word),
    (∀ r : Reg, s.resolve 0 r.number = .ok (s.readReg r)) ∧ s.resolve 1 v = .ok v ∧
    (6 < v.toNat → s.resolve 0 v = .error ⟨.invalidRegister, v⟩) ∧
    ∀ t : Word, 1 < t.toNat → s.resolve t v = .error ⟨.invalidTag, t⟩

/-- R202: CMP resolves both operands, writes all 16 bits of FLAGS with 1 or 0, advances IP by 5 and changes nothing else;
its abnormal halts, in the rule's order, change no register. -/
def Obligations.CmpWritesEqualityToFlags : Prop :=
  ∀ (s : State) (tA vA tB vB : Word), encode (.cmp tA vA tB vB) = [8, tA, vA, tB, vB] ∧
    (∀ p q, s.resolve tA vA = .ok p → s.resolve tB vB = .ok q →
      ∃ t, exec (.cmp tA vA tB vB) s = .next t ∧ (p = q → t.readReg .flags = 1) ∧ (p ≠ q → t.readReg .flags = 0) ∧
        t.pc.toNat = (s.pc.toNat + 5) % 65536 ∧ ChangesOnly [.flags, .ip] s t) ∧
    (1 < tA.toNat → ∃ t, exec (.cmp tA vA tB vB) s = .next t ∧ HaltsAbnormally .invalidTag tA s t) ∧
    (tA = 0 → 6 < vA.toNat → ∃ t, exec (.cmp tA vA tB vB) s = .next t ∧ HaltsAbnormally .invalidRegister vA s t) ∧
    (operandOk tA vA = true → 1 < tB.toNat →
      ∃ t, exec (.cmp tA vA tB vB) s = .next t ∧ HaltsAbnormally .invalidTag tB s t) ∧
    (operandOk tA vA = true → tB = 0 → 6 < vB.toNat →
      ∃ t, exec (.cmp tA vA tB vB) s = .next t ∧ HaltsAbnormally .invalidRegister vB s t)

/-- R203: the four operand-kind combinations, all legal to the decoder, each with a next state and the comparison it
makes. -/
def Obligations.CmpTakesAllFourOperandKinds : Prop :=
  ∀ (s : State) (r q : Reg) (v w : Word),
    (∃ t, exec (.cmp 0 r.number 0 q.number) s = .next t ∧ (t.readReg .flags = 1 ↔ s.readReg r = s.readReg q)) ∧
    (∃ t, exec (.cmp 0 r.number 1 w) s = .next t ∧ (t.readReg .flags = 1 ↔ s.readReg r = w)) ∧
    (∃ t, exec (.cmp 1 v 0 q.number) s = .next t ∧ (t.readReg .flags = 1 ↔ v = s.readReg q)) ∧
    ∃ t, exec (.cmp 1 v 1 w) s = .next t ∧ (t.readReg .flags = 1 ↔ v = w)

/-! ### Runs and the host interface -/

/-- R150: a run is determined by where it starts: it ends in at most one state. -/
def Obligations.RunEndsInAtMostOneState : Prop :=
  ∀ s t u : State, RunEnds s t → RunEnds s u → t = u

/-- R148, R282: the bounded run agrees with the run: where it stops with the status no longer RUNNING the run ends there,
and every run that ends is ended by some bound, and by every greater one. -/
def Obligations.BoundedRunAgreesWithTheRun : Prop :=
  ∀ s t : State, (∀ n, runFor n s = t → t.status ≠ .running → RunEnds s t) ∧
    (RunEnds s t → ∃ n, ∀ m, n ≤ m → runFor m s = t)

/-- R149, R221, R222: a JMP to itself never ends, and neither does a taken JE to itself: there is no watchdog. -/
def Obligations.SelfJumpNeverEnds : Prop :=
  ∀ s : State, s.status = .running →
    (s.mem.decodeAt s.pc = .ok (.jmp s.pc) ∨ (s.mem.decodeAt s.pc = .ok (.je s.pc) ∧ s.readReg .flags = 1)) →
    RunsForever s ∧ ∀ t, Steps s t → t = s

/-- R40 (the interface is the spec's own decision D10): the status and all seven registers can be read whenever the status
is not RUNNING, and not while it is. -/
def Obligations.HostObservesEndedCoreOnly : Prop :=
  ∀ s : State, (s.status = .running → s.observe = none) ∧
    (s.status ≠ .running → s.observe = some (s.status, s.regs))

/-! ### The assembler -/

/-- R97: the words emitted for an accepted line decode, wherever they are placed, to the well-formed instruction the line
spells. -/
def Obligations.AssembledLineDecodesToItsInstruction : Prop :=
  ∀ (text : String) (i : Instr), assembleLine text = .ok (some i) →
    i.wellFormed = true ∧ ∀ (m : Memory) (c : Word), m.wf → (m.writeWords c (encode i)).decodeAt c = .ok i

/-- R105, R120, R121: the image of a text that assembles is the encodings of its instructions, one after the other from
word 0, and 0 in every other word. -/
def Obligations.AssembledImageIsTheEncodingsInOrder : Prop :=
  ∀ (lines : List String) (m : Memory), assemble lines = .ok m →
    ((spelledInstrs lines).flatMap encode).length ≤ 65536 ∧
    ∀ a : Word, m.read a = ((spelledInstrs lines).flatMap encode).getD a.toNat 0

/-- R97, R121: every instruction of a text that assembles decodes from the image at the sum of the lengths of the
instructions before it. -/
def Obligations.AssembledTextDecodesInstructionByInstruction : Prop :=
  ∀ (lines : List String) (m : Memory) (before after : List Instr) (i : Instr),
    assemble lines = .ok m → spelledInstrs lines = before ++ i :: after →
    m.decodeAt (BitVec.ofNat 16 (before.flatMap encode).length) = .ok i

/-- R105, R122: a text whose lines all are accepted assembles if its words fit in the memory. -/
def Obligations.AcceptedLinesThatFitAssemble : Prop :=
  ∀ lines : List String, (∀ text ∈ lines, ∃ r, assembleLine text = .ok r) →
    ((spelledInstrs lines).flatMap encode).length ≤ 65536 → ∃ m, assemble lines = .ok m

/-- R119: the first malformed line wins: an error names the 1-based number of a line that is malformed where every line
before it was accepted. -/
def Obligations.FirstMalformedLineWins : Prop :=
  ∀ (lines : List String) (e : AsmError), assemble lines = .error e →
    ∃ before text after st, lines = before ++ text :: after ∧ e.line = before.length + 1 ∧
      assembleFrom 1 .start before = .ok st ∧ st.line text = .error e.kind

/-- R106, R124: a comment or blank line moves no cursor, emits nothing and still counts as a line. -/
def Obligations.SkippedLineOnlyCounts : Prop :=
  (∀ (n : Nat) (st : AsmState) (text : String) (rest : List String), cleanLine text = [] →
    assembleFrom n st (text :: rest) = assembleFrom (n + 1) st rest) ∧
  ∀ blanks cs : List Char, (∀ c ∈ blanks, isBlank c = true) →
    cleanLine (String.ofList blanks) = [] ∧ cleanLine (String.ofList (blanks ++ '/' :: '/' :: cs)) = []

/-- R106: everything from the first `//` on is stripped, so a trailing comment changes nothing. -/
def Obligations.TrailingCommentChangesNothing : Prop :=
  ∀ cs comment : List Char, '/' ∉ cs →
    assembleLine (String.ofList (cs ++ '/' :: '/' :: comment)) = assembleLine (String.ofList cs)

/-- R108: case makes no difference: lines that are equal once upper-cased assemble alike. -/
def Obligations.LetterCaseMakesNoDifference : Prop :=
  ∀ line line' : String, upper line.toList = upper line'.toList → assembleLine line = assembleLine line'

/-- R110, R113 to R116: what each mnemonic emits for each kind of operand, and the operand kinds it rejects. -/
def Obligations.EveryMnemonicEmitsItsForms : Prop :=
  (∀ (a b : List Char) (r q : Reg) (n : Int), classify a = .ok (.reg r) →
    (classify b = .ok (.imm n) →
      instrOf .mov [a, b] = .ok (.movImm r.number (immWord n)) ∧ instrOf .add [a, b] = .ok (.addImm r.number (immWord n)) ∧
      instrOf .sub [a, b] = .ok (.subImm r.number (immWord n)) ∧ instrOf .cmp [a, b] = .ok (.cmp 0 r.number 1 (immWord n))) ∧
    (classify b = .ok (.reg q) →
      instrOf .mov [a, b] = .ok (.movReg r.number q.number) ∧ instrOf .add [a, b] = .ok (.addReg r.number q.number) ∧
      instrOf .sub [a, b] = .ok (.subReg r.number q.number) ∧ instrOf .cmp [a, b] = .ok (.cmp 0 r.number 0 q.number)) ∧
    ∀ m, m = .jmp ∨ m = .je ∨ m = .jne → instrOf m [a] = .error .invalidOperand) ∧
  (∀ (a b : List Char) (n : Int), classify a = .ok (.imm n) →
    instrOf .jmp [a] = .ok (.jmp (immWord n)) ∧ instrOf .je [a] = .ok (.je (immWord n)) ∧
    instrOf .jne [a] = .ok (.jne (immWord n)) ∧
    ∀ m, m = .mov ∨ m = .add ∨ m = .sub ∨ m = .cmp → instrOf m [a, b] = .error .invalidOperand) ∧
  instrOf .hlt [] = .ok .hlt

/-- R112 (the spec's own decision D9): an immediate token's number is reduced modulo 65536. -/
def Obligations.ImmediateIsReducedModulo65536 : Prop :=
  ∀ n : Int, ((immWord n).toNat : Int) = n % 65536

/-- R122 (the spec's own decision D16): an instruction that does not fit below address 65536 is the error memory exhausted,
and one that fits is emitted. -/
def Obligations.EmissionFailsExactlyPastTheEnd : Prop :=
  ∀ (st : AsmState) (i : Instr),
    (65536 < st.cursor + (encode i).length → st.emit i = .error .memoryExhausted) ∧
    (st.cursor + (encode i).length ≤ 65536 → ∃ st', st.emit i = .ok st' ∧ st'.cursor = st.cursor + (encode i).length)

/-- R98, R116: the assembler never emits a CMP whose first operand is an immediate. -/
def Obligations.AssembledCompareHasRegisterFirst : Prop :=
  ∀ (text : String) (tA vA tB vB : Word), assembleLine text = .ok (some (.cmp tA vA tB vB)) →
    tA = 0 ∧ ∃ r : Reg, vA = r.number
end

