-- ==== Sys2Proof/Laws/Memory.lean ====
section
/-! SUPPORT. Memory operations keep the canonical form, and what a read gives after a write. -/

namespace Sys2Proof.Machine

/-- The memory at reset, no image loaded, is in canonical form. -/
theorem reset_mem_wf : Memory.wf State.reset.mem := ⟨List.Pairwise.nil, by intro c hc; cases hc⟩

/-- A key below every entry's is unlisted. -/
theorem Memory.lookup_of_lt {m : Memory} {k : Nat} (h : ∀ c ∈ m, k < c.1) :
    Memory.lookup k m = Config.unlistedWord := by
  induction m with
  | nil => rfl
  | cons c m ih =>
    have hc := h c (by simp)
    simp only [Memory.lookup]
    rw [if_neg (by omega)]
    exact ih fun d hd => h d (by simp [hd])

/-- The keys of a memory after one write are the written key and the old ones. -/
theorem Memory.mem_put {m : Memory} {k : Nat} {v : Word} {c : Nat × Word} (h : c ∈ Memory.put k v m) :
    c ∈ m ∨ (c = (k, v) ∧ v ≠ Config.unlistedWord) := by
  induction m with
  | nil =>
    simp only [Memory.put] at h
    split at h
    · cases h
    · exact .inr ⟨by simpa using h, ‹_›⟩
  | cons d m ih =>
    simp only [Memory.put] at h
    split at h
    · split at h
      · exact .inl h
      · rcases List.mem_cons.1 h with h | h
        · exact .inr ⟨h, ‹_›⟩
        · exact .inl h
    · split at h
      · split at h
        · exact .inl (List.mem_cons_of_mem _ h)
        · rcases List.mem_cons.1 h with h | h
          · exact .inr ⟨h, ‹_›⟩
          · exact .inl (List.mem_cons_of_mem _ h)
      · rcases List.mem_cons.1 h with h | h
        · exact .inl (by simp [h])
        · rcases ih h with h | h
          · exact .inl (List.mem_cons_of_mem _ h)
          · exact .inr h

/-- One write keeps the addresses strictly rising. -/
theorem Memory.put_sorted {m : Memory} {k : Nat} {v : Word} (h : m.Pairwise fun c d => c.1 < d.1) :
    (Memory.put k v m).Pairwise fun c d => c.1 < d.1 := by
  induction m with
  | nil => simp only [Memory.put]; split <;> simp
  | cons d m ih =>
    have hd := List.pairwise_cons.1 h
    simp only [Memory.put]
    split
    · split
      · exact h
      · refine List.pairwise_cons.2 ⟨fun e he => ?_, h⟩
        rcases List.mem_cons.1 he with rfl | he
        · assumption
        · have := hd.1 e he; simp only; omega
    · split
      · split
        · exact hd.2
        · refine List.pairwise_cons.2 ⟨fun e he => ?_, hd.2⟩
          have := hd.1 e he; simp only; omega
      · refine List.pairwise_cons.2 ⟨fun e he => ?_, ih hd.2⟩
        rcases Memory.mem_put he with he | ⟨rfl, -⟩
        · exact hd.1 e he
        · simp only; omega

/-- One write keeps the canonical form. -/
theorem Memory.put_wf {m : Memory} {k : Nat} {v : Word} (h : m.wf) (hk : k < Config.memWords) :
    Memory.wf (Memory.put k v m) := by
  refine ⟨Memory.put_sorted h.1, fun c hc => ?_⟩
  rcases Memory.mem_put hc with hc | ⟨rfl, hv⟩
  · exact h.2 c hc
  · exact ⟨hk, hv⟩

/-- What a key holds after one write. -/
theorem Memory.lookup_put {m : Memory} {k j : Nat} {v : Word} (h : m.Pairwise fun c d => c.1 < d.1) :
    Memory.lookup j (Memory.put k v m) = if j = k then v else Memory.lookup j m := by
  induction m with
  | nil =>
    simp only [Memory.put]
    by_cases hj : j = k
    · subst hj; split <;> simp_all [Memory.lookup]
    · rw [if_neg hj]
      split
      · rfl
      · simp only [Memory.lookup]; rw [if_neg (Ne.symm hj)]
  | cons d m ih =>
    have hd := List.pairwise_cons.1 h
    have hlow : k < d.1 → Memory.lookup k (d :: m) = Config.unlistedWord := fun hk =>
      Memory.lookup_of_lt fun e he => by
        rcases List.mem_cons.1 he with rfl | he
        · exact hk
        · have := hd.1 e he; omega
    simp only [Memory.put]
    split
    · split
      · split
        · subst j; simp_all
        · rfl
      · simp only [Memory.lookup, eq_comm]
    · split
      · split
        · split
          · subst j
            rw [Memory.lookup_of_lt fun e he => by have := hd.1 e he; omega]
            exact Eq.symm ‹_›
          · simp only [Memory.lookup]; rw [if_neg (by omega)]
        · by_cases hj : j = k
          · simp [Memory.lookup, hj]
          · simp only [Memory.lookup]; rw [if_neg (by omega), if_neg hj, if_neg (by omega)]
      · by_cases hj : j = k
        · simp only [Memory.lookup]; rw [if_neg (by omega), ih hd.2, if_pos hj]; simp [hj]
        · simp only [Memory.lookup]; rw [ih hd.2, if_neg hj, if_neg hj]

/-- A write to a word address keeps the canonical form. -/
theorem Memory.write_wf {m : Memory} (h : m.wf) (a v : Word) : (m.write a v).wf :=
  Memory.put_wf h a.isLt

/-- A read after a write: the value written at that address, and every other address as before. -/
theorem Memory.read_write {m : Memory} (h : m.wf) (a b v : Word) :
    (m.write a v).read b = if b = a then v else m.read b := by
  have := Memory.lookup_put (k := a.toNat) (j := b.toNat) (v := v) h.1
  simpa [Memory.read, Memory.write, BitVec.toNat_eq] using this

/-- Storing a list of words keeps the canonical form. -/
theorem Memory.writeWords_wf {m : Memory} (h : m.wf) (a : Word) (ws : List Word) : (m.writeWords a ws).wf := by
  induction ws generalizing m a with
  | nil => exact h
  | cons w ws ih => exact ih (Memory.write_wf h a w) (a + 1)

/-- The address one place on, counted from the next address. -/
theorem addr_succ (a : Word) (k : Nat) : a + 1 + BitVec.ofNat 16 k = a + BitVec.ofNat 16 (k + 1) := by
  apply BitVec.eq_of_toNat_eq
  simp only [BitVec.toNat_add, BitVec.toNat_ofNat, show (1 : Word).toNat = 1 from rfl]
  omega

/-- An address that none of the stored words has reads as before. -/
theorem Memory.read_writeWords_outside {m : Memory} (h : m.wf) (a b : Word) (ws : List Word)
    (hb : ∀ k < ws.length, b ≠ a + BitVec.ofNat 16 k) : (m.writeWords a ws).read b = m.read b := by
  induction ws generalizing m a with
  | nil => rfl
  | cons w ws ih =>
    have h0 : b ≠ a := by simpa using hb 0 (by simp)
    rw [Memory.writeWords, ih (Memory.write_wf h a w), Memory.read_write h, if_neg h0]
    intro k hk hbk
    refine hb (k + 1) (by simpa using hk) ?_
    rw [hbk, addr_succ]

/-- Each stored word reads back, if there are no more words than addresses. -/
theorem Memory.read_writeWords_inside {m : Memory} (h : m.wf) (a : Word) (ws : List Word)
    (hlen : ws.length ≤ Config.memWords) (k : Nat) (hk : k < ws.length) :
    (m.writeWords a ws).read (a + BitVec.ofNat 16 k) = ws[k] := by
  induction ws generalizing m a k with
  | nil => cases hk
  | cons w ws ih =>
    simp only [List.length_cons, Config.memWords] at hlen hk
    cases k with
    | zero =>
      rw [Memory.writeWords, Memory.read_writeWords_outside (Memory.write_wf h a w), Memory.read_write h]
      · simp
      · intro j hj heq
        have := congrArg BitVec.toNat heq
        simp only [addr_succ, BitVec.toNat_add, BitVec.toNat_ofNat] at this
        omega
    | succ k =>
      have := ih (Memory.write_wf h a w) (a + 1) (by simp only [Config.memWords]; omega) k (by omega)
      rw [Memory.writeWords, List.getElem_cons_succ, ← this, addr_succ]

/-- A read of `n` words gives as many (R10). -/
theorem Memory.length_readWords (m : Memory) (a : Word) (n : Nat) : (m.readWords a n).length = n := by
  induction n generalizing a with
  | zero => rfl
  | succ n ih => simp [Memory.readWords, ih]

/-- A read of `n` words gives the words at `a`, `a + 1` and so on (R10). -/
theorem Memory.getElem_readWords (m : Memory) (a : Word) (n k : Nat) (hk : k < (m.readWords a n).length) :
    (m.readWords a n)[k] = m.read (a + BitVec.ofNat 16 k) := by
  induction n generalizing a k with
  | zero => simp [Memory.readWords] at hk
  | succ n ih =>
    cases k with
    | zero => simp [Memory.readWords]
    | succ k => simp only [Memory.readWords, List.getElem_cons_succ, ih, addr_succ]

/-- A memory image is in canonical form. -/
theorem Memory.ofImage_wf (ws : List Word) : (Memory.ofImage ws).wf :=
  Memory.writeWords_wf reset_mem_wf 0 _

end Sys2Proof.Machine
end

