-- ==== Sys2Proof/Laws/Assembler.lean ====
section
/-! SUPPORT. Everything the assembler's shared operations can answer. -/

namespace Sys2Proof.Machine

/-- Everything classification can answer: an immediate, else a register, else an error (R109). -/
theorem classify_cases (cs : List Char) :
    (∃ n, immediate? cs = some n ∧ classify cs = .ok (.imm n)) ∨
    (∃ r, immediate? cs = none ∧ regNamed? cs = some r ∧ classify cs = .ok (.reg r)) ∨
    (immediate? cs = none ∧ regNamed? cs = none ∧ classify cs = .error .invalidOperand) := by
  cases hi : immediate? cs with
  | some n => exact .inl ⟨n, rfl, by simp [classify, hi]⟩
  | none =>
    cases hr : regNamed? cs with
    | some r => exact .inr (.inl ⟨r, rfl, rfl, by simp [classify, hi, hr]⟩)
    | none => exact .inr (.inr ⟨rfl, rfl, by simp [classify, hi, hr]⟩)

/-- Everything a line can do to the assembler, if it is no error: nothing, or the emission of the instruction it
spells. -/
theorem AsmState.line_eq_ok {st st' : AsmState} {text : String} (h : st.line text = .ok st') :
    (assembleLine text = .ok none ∧ st' = st) ∨ ∃ i, assembleLine text = .ok (some i) ∧ st.emit i = .ok st' := by
  unfold AsmState.line at h
  split at h
  · cases h
  · cases h; exact .inl ⟨‹_›, rfl⟩
  · exact .inr ⟨_, ‹_›, h⟩

/-- Everything an emission does, if it is no error. -/
theorem AsmState.emit_eq_ok {st st' : AsmState} {i : Instr} (h : st.emit i = .ok st') :
    st.cursor + (encode i).length ≤ Config.memWords ∧
      st'.cursor = st.cursor + (encode i).length ∧
      st'.image = st.image.writeWords (BitVec.ofNat 16 st.cursor) (encode i) := by
  unfold AsmState.emit at h
  split at h
  · cases h; exact ⟨‹_›, rfl, rfl⟩
  · cases h

/-- One line keeps the image in canonical form. -/
theorem AsmState.line_wf {st st' : AsmState} {text : String} (hw : st.image.wf) (h : st.line text = .ok st') :
    st'.image.wf := by
  rcases AsmState.line_eq_ok h with ⟨-, rfl⟩ | ⟨i, -, hi⟩
  · exact hw
  · rw [(AsmState.emit_eq_ok hi).2.2]; exact Memory.writeWords_wf hw _ _

/-- An assembly from a well-formed image ends in one. -/
theorem assembleFrom_wf {n : Nat} {st st' : AsmState} {lines : List String} (hw : st.image.wf)
    (h : assembleFrom n st lines = .ok st') : st'.image.wf := by
  induction lines generalizing n st with
  | nil => cases h; exact hw
  | cons text rest ih =>
    simp only [assembleFrom] at h
    split at h
    · cases h
    · exact ih (AsmState.line_wf hw ‹_›) h

/-- What the assembler produces is a memory in canonical form. -/
theorem assemble_wf {lines : List String} {m : Memory} (h : assemble lines = .ok m) : m.wf := by
  unfold assemble at h
  cases hs : assembleFrom 1 .start lines with
  | error e => rw [hs] at h; cases h
  | ok st =>
    rw [hs] at h; cases h
    exact assembleFrom_wf (show AsmState.start.image.wf from ⟨List.Pairwise.nil, by intro c hc; cases hc⟩) hs

end Sys2Proof.Machine
end

