-- ==== Sys2Proof/Laws/Decode.lean ====
section
/-! SUPPORT. Everything the decoder's operand readers can answer. -/

namespace Sys2Proof

/-- The number of a register names that register (R7). -/
@[simp] theorem Reg.ofNumber?_number (r : Reg) : Reg.ofNumber? r.number = some r := by cases r <;> rfl

/-- A word that names a register is its number. -/
theorem Reg.eq_number_of_ofNumber? {w : Word} {r : Reg} (h : Reg.ofNumber? w = some r) : w = r.number := by
  apply BitVec.eq_of_toNat_eq
  unfold Reg.ofNumber? at h
  split at h <;> first | (cases h; assumption) | cases h

/-- A word names no register exactly when it is above 6 (R93). -/
theorem Reg.ofNumber?_eq_none {w : Word} : Reg.ofNumber? w = none ↔ 6 < w.toNat := by
  unfold Reg.ofNumber?
  split
  all_goals simp_all
  all_goals omega

/-- A register-number word is legal exactly when it names a register. -/
theorem regIdOk_iff {w : Word} : regIdOk w = true ↔ ∃ r, Reg.ofNumber? w = some r := by
  rw [← Option.isSome_iff_exists, Option.isSome_iff_ne_none, Ne, Reg.ofNumber?_eq_none]
  simp only [regIdOk, decide_eq_true_eq, Config.numRegs]; omega

@[simp] theorem regOf_number (r : Reg) : regOf r.number = .ok r := by simp [regOf]

/-- Everything `regOf` can answer. -/
theorem regOf_cases (w : Word) :
    (∃ r : Reg, w = r.number ∧ regOf w = .ok r) ∨ (6 < w.toNat ∧ regOf w = .error ⟨.invalidRegister, w⟩) := by
  cases h : Reg.ofNumber? w with
  | some r => exact .inl ⟨r, Reg.eq_number_of_ofNumber? h, by simp [regOf, h]⟩
  | none => exact .inr ⟨Reg.ofNumber?_eq_none.1 h, by simp [regOf, h]⟩

theorem regOf_invalid {w : Word} (h : 6 < w.toNat) : regOf w = .error ⟨.invalidRegister, w⟩ := by
  simp [regOf, Reg.ofNumber?_eq_none.2 h]

/-- Everything `operandOf` can answer (R200): a register, a literal, or one of the two decode errors. -/
theorem operandOf_cases (t v : Word) :
    (∃ r : Reg, t = 0 ∧ v = r.number ∧ operandOf t v = .ok (.reg r)) ∨
    (t = 1 ∧ operandOf t v = .ok (.imm v)) ∨
    (t = 0 ∧ 6 < v.toNat ∧ operandOf t v = .error ⟨.invalidRegister, v⟩) ∨
    (1 < t.toNat ∧ operandOf t v = .error ⟨.invalidTag, t⟩) := by
  rcases ht : t.toNat with - | - | n
  · have h0 : t = 0 := BitVec.eq_of_toNat_eq ht
    rcases regOf_cases v with ⟨r, hv, hr⟩ | ⟨hv, hr⟩
    · exact .inl ⟨r, h0, hv, by simp [operandOf, ht, hr, Except.map]⟩
    · exact .inr (.inr (.inl ⟨h0, hv, by simp [operandOf, ht, hr, Except.map]⟩))
  · exact .inr (.inl ⟨BitVec.eq_of_toNat_eq ht, by simp [operandOf, ht]⟩)
  · exact .inr (.inr (.inr ⟨by omega, by simp [operandOf, ht]⟩))

/-- A CMP operand is legal exactly when it reads as an operand (R93). -/
theorem operandOk_iff {t v : Word} : operandOk t v = true ↔ ∃ o, operandOf t v = .ok o := by
  rcases operandOf_cases t v with ⟨r, rfl, rfl, h⟩ | ⟨rfl, h⟩ | ⟨rfl, hv, h⟩ | ⟨ht, h⟩
  · exact iff_of_true (by cases r <;> rfl) ⟨_, h⟩
  · exact iff_of_true rfl ⟨_, h⟩
  · refine iff_of_false ?_ (by rintro ⟨o, ho⟩; rw [h] at ho; cases ho)
    have hr : regIdOk v = false := by simp only [regIdOk, decide_eq_false_iff_not, Config.numRegs]; omega
    simp only [operandOk, hr, Bool.or_false]; decide
  · refine iff_of_false ?_ (by rintro ⟨o, ho⟩; rw [h] at ho; cases ho)
    have hr : tagOk t = false := by simp only [tagOk, decide_eq_false_iff_not]; omega
    simp [operandOk, hr]

/-- The decoder answers an instruction exactly when the opcode map does and its operand check passes (R95). -/
theorem decode_eq_ok {word : Nat → Word} {i : Instr} :
    decode word = .ok i ↔ opcodeMap word = some i ∧ operandCheck i = .ok () := by
  unfold decode
  split
  · simp_all
  · rename_i j hj
    split
    · rename_i e he
      constructor
      · intro h; cases h
      · rintro ⟨h, hc⟩; rw [hj] at h; cases h; rw [he] at hc; cases hc
    · rename_i u hu
      constructor
      · intro h; cases h; exact ⟨hj, hu⟩
      · rintro ⟨h, -⟩; rw [hj] at h; cases h; rfl

/-- The decoder answers an error exactly when the opcode map has no such opcode or its operand check fails (R95). -/
theorem decode_eq_error {word : Nat → Word} {e : DecodeError} :
    decode word = .error e ↔ (opcodeMap word = none ∧ e = ⟨.unknownOpcode, word 0⟩) ∨
      ∃ i, opcodeMap word = some i ∧ operandCheck i = .error e := by
  unfold decode
  split
  · rename_i h
    rw [h]
    constructor
    · intro he; cases he; exact .inl ⟨rfl, rfl⟩
    · rintro (⟨-, rfl⟩ | ⟨i, hi, -⟩)
      · rfl
      · cases hi
  · rename_i j hj
    split <;> simp_all

/-- The opcode map has no instruction exactly for an opcode word above 10 (R92). -/
theorem opcodeMap_eq_none {word : Nat → Word} : opcodeMap word = none ↔ 10 < (word 0).toNat := by
  unfold opcodeMap
  split
  all_goals simp_all
  all_goals omega

end Sys2Proof
end

