-- ==== Sys2Proof/Laws/State.lean ====
section
/-! SUPPORT. One lemma per field per update of the state, so that no later proof unfolds a record update. -/

namespace Sys2Proof.Machine

/-! ### writeReg -/

@[simp] theorem State.writeReg_mem (s : State) (r : Reg) (v : Word) : (s.writeReg r v).mem = s.mem := rfl
@[simp] theorem State.writeReg_status (s : State) (r : Reg) (v : Word) : (s.writeReg r v).status = s.status := rfl
@[simp] theorem State.writeReg_regs (s : State) (r : Reg) (v : Word) :
    (s.writeReg r v).regs = s.regs.write r v := rfl

/-! ### jumpTo -/

@[simp] theorem State.jumpTo_mem (s : State) (t : Word) : (s.jumpTo t).mem = s.mem := rfl
@[simp] theorem State.jumpTo_status (s : State) (t : Word) : (s.jumpTo t).status = s.status := rfl
@[simp] theorem State.jumpTo_regs (s : State) (t : Word) : (s.jumpTo t).regs = s.regs.write .ip t := rfl

/-! ### advanceIP -/

@[simp] theorem State.advanceIP_mem (s : State) (n : Word) : (s.advanceIP n).mem = s.mem := rfl
@[simp] theorem State.advanceIP_status (s : State) (n : Word) : (s.advanceIP n).status = s.status := rfl
@[simp] theorem State.advanceIP_regs (s : State) (n : Word) :
    (s.advanceIP n).regs = s.regs.write .ip (s.pc + n) := rfl

/-! ### halt -/

@[simp] theorem State.halt_mem (s : State) : s.halt.mem = s.mem := rfl
@[simp] theorem State.halt_regs (s : State) : s.halt.regs = s.regs := rfl
@[simp] theorem State.halt_status (s : State) : s.halt.status = .halted := rfl

/-! ### abnormalHalt -/

@[simp] theorem State.abnormalHalt_mem (s : State) (e : DecodeError) : (s.abnormalHalt e).mem = s.mem := rfl
@[simp] theorem State.abnormalHalt_regs (s : State) (e : DecodeError) : (s.abnormalHalt e).regs = s.regs := rfl
@[simp] theorem State.abnormalHalt_status (s : State) (e : DecodeError) :
    (s.abnormalHalt e).status = .faulted e.cause ⟨s.pc, e.word⟩ := rfl

/-! ### resetWith -/

@[simp] theorem State.resetWith_mem (image : Memory) : (State.resetWith image).mem = image := rfl
@[simp] theorem State.resetWith_status (image : Memory) : (State.resetWith image).status = .running := rfl

/-! ### One register read after one update -/

/-- A register file reads back what was written to the register, and every other register is as before. -/
theorem RegFile.read_write (x : RegFile) (r q : Reg) (v : Word) :
    (x.write r v).read q = if q = r then v else x.read q := by
  cases r <;> cases q <;> rfl

@[simp] theorem RegFile.read_write_same (x : RegFile) (r : Reg) (v : Word) : (x.write r v).read r = v := by
  simp [RegFile.read_write]

@[simp] theorem RegFile.read_write_other (x : RegFile) {r q : Reg} (v : Word) (h : q ≠ r) :
    (x.write r v).read q = x.read q := by
  simp [RegFile.read_write, h]

/-- Two register files that read alike are equal: the seven registers are all there is (R24). -/
theorem RegFile.ext_read {x y : RegFile} (h : ∀ r, x.read r = y.read r) : x = y := by
  cases x; cases y
  have ha := h .ax; have hb := h .bx; have hc := h .cx; have hd := h .dx
  have hs := h .sp; have hi := h .ip; have hf := h .flags
  simp only [RegFile.read] at ha hb hc hd hs hi hf
  simp [ha, hb, hc, hd, hs, hi, hf]

/-- Everything `writeReg` does to the registers. -/
theorem State.readReg_writeReg (s : State) (r q : Reg) (v : Word) :
    (s.writeReg r v).readReg q = if q = r then v else s.readReg q :=
  RegFile.read_write s.regs r q v

@[simp] theorem State.readReg_writeReg_same (s : State) (r : Reg) (v : Word) : (s.writeReg r v).readReg r = v := by
  simp [State.readReg_writeReg]

@[simp] theorem State.readReg_writeReg_other (s : State) {r q : Reg} (v : Word) (h : q ≠ r) :
    (s.writeReg r v).readReg q = s.readReg q := by
  simp [State.readReg_writeReg, h]

/-- Everything `jumpTo` does to the registers. -/
theorem State.readReg_jumpTo (s : State) (q : Reg) (t : Word) :
    (s.jumpTo t).readReg q = if q = .ip then t else s.readReg q :=
  s.readReg_writeReg .ip q t

@[simp] theorem State.pc_jumpTo (s : State) (t : Word) : (s.jumpTo t).pc = t := rfl

@[simp] theorem State.readReg_jumpTo_other (s : State) {q : Reg} (t : Word) (h : q ≠ .ip) :
    (s.jumpTo t).readReg q = s.readReg q := by
  simp [State.readReg_jumpTo, h]

/-- Everything `advanceIP` does to the registers. -/
theorem State.readReg_advanceIP (s : State) (q : Reg) (n : Word) :
    (s.advanceIP n).readReg q = if q = .ip then s.pc + n else s.readReg q :=
  s.readReg_jumpTo q _

@[simp] theorem State.pc_advanceIP (s : State) (n : Word) : (s.advanceIP n).pc = s.pc + n := rfl

@[simp] theorem State.readReg_advanceIP_other (s : State) {q : Reg} (n : Word) (h : q ≠ .ip) :
    (s.advanceIP n).readReg q = s.readReg q := by
  simp [State.readReg_advanceIP, h]

@[simp] theorem State.readReg_halt (s : State) (q : Reg) : s.halt.readReg q = s.readReg q := rfl

@[simp] theorem State.readReg_abnormalHalt (s : State) (e : DecodeError) (q : Reg) :
    (s.abnormalHalt e).readReg q = s.readReg q := rfl

/-- `pc` is another name for IP (R9). -/
theorem State.readReg_ip (s : State) : s.readReg .ip = s.pc := rfl

end Sys2Proof.Machine
end

