-- ==== Sys2Proof/Laws/Operands.lean ====
section
/-! SUPPORT. Everything the shared operand forms can do. -/

namespace Sys2Proof.Machine

@[simp] theorem State.finish_ok (s t : State) : s.finish (.ok t) = .next t := rfl

@[simp] theorem State.finish_error (s : State) (e : DecodeError) : s.finish (.error e) = .next (s.abnormalHalt e) := rfl

/-- Whatever the operand checks answer, the step ends in a next state: the effect, or the abnormal halt. -/
theorem State.finish_isNext (s : State) (x : Except DecodeError State) : ∃ t, s.finish x = .next t := by
  cases x <;> exact ⟨_, rfl⟩

@[simp] theorem State.operandValue_reg (s : State) (r : Reg) : s.operandValue (.reg r) = s.readReg r := rfl

@[simp] theorem State.operandValue_imm (s : State) (v : Word) : s.operandValue (.imm v) = v := rfl

/-- Format RI with a register's number as its first word: the write, then the advance of IP. -/
theorem execRegImm_number (op : Word → Word → Word) (d : Reg) (i : Word) (s : State) :
    execRegImm op d.number i s = .next ((s.writeReg d (op (s.readReg d) i)).advanceIP 3) := by
  unfold execRegImm; rw [regOf_number]; rfl

/-- Format RI with a first word above 6: the abnormal halt. -/
theorem execRegImm_invalid (op : Word → Word → Word) {r : Word} (i : Word) (s : State) (h : 6 < r.toNat) :
    execRegImm op r i s = .next (s.abnormalHalt ⟨.invalidRegister, r⟩) := by
  unfold execRegImm; rw [regOf_invalid h]; rfl

/-- Format RR with two registers' numbers: the write, then the advance of IP. -/
theorem execRegReg_number (op : Word → Word → Word) (d r : Reg) (s : State) :
    execRegReg op d.number r.number s =
      .next ((s.writeReg d (op (s.readReg d) (s.readReg r))).advanceIP 3) := by
  unfold execRegReg; rw [regOf_number, regOf_number]; rfl

/-- Format RR with a first word above 6: the abnormal halt that reports it, whatever the second word. -/
theorem execRegReg_invalid_first (op : Word → Word → Word) {d : Word} (r : Word) (s : State) (h : 6 < d.toNat) :
    execRegReg op d r s = .next (s.abnormalHalt ⟨.invalidRegister, d⟩) := by
  unfold execRegReg; rw [regOf_invalid h]; rfl

/-- Format RR with a legal first word and a second above 6: the abnormal halt that reports the second. -/
theorem execRegReg_invalid_second (op : Word → Word → Word) (d : Reg) {r : Word} (s : State) (h : 6 < r.toNat) :
    execRegReg op d.number r s = .next (s.abnormalHalt ⟨.invalidRegister, r⟩) := by
  unfold execRegReg; rw [regOf_number, regOf_invalid h]; rfl

/-- `resolve` is the operand's value wherever the two words read as an operand (R200). -/
theorem State.resolve_of_operandOf {s : State} {t v : Word} {o : Operand} (h : operandOf t v = .ok o) :
    s.resolve t v = .ok (s.operandValue o) := by simp [State.resolve, h, Except.map]

/-- `resolve` is the decode error wherever the two words read as none. -/
theorem State.resolve_of_error {s : State} {t v : Word} {e : DecodeError} (h : operandOf t v = .error e) :
    s.resolve t v = .error e := by simp [State.resolve, h, Except.map]

end Sys2Proof.Machine
end

