-- ==== Sys2Proof/Laws/PerInstr.lean ====
section
/-! SUPPORT. Facts about every instruction as syntax, one lemma per constructor. -/

namespace Sys2Proof.Laws

/-- The encoding has the length that its opcode word fixes (30_encoding.md R88). -/
def EncodeLength.Statement (i : Instr) : Prop := opcodeLength? i.opcode = some (encode i).length

theorem EncodeLength.hlt : EncodeLength.Statement .hlt := rfl
theorem EncodeLength.movImm (r i : Word) : EncodeLength.Statement (.movImm r i) := rfl
theorem EncodeLength.addImm (r i : Word) : EncodeLength.Statement (.addImm r i) := rfl
theorem EncodeLength.subImm (r i : Word) : EncodeLength.Statement (.subImm r i) := rfl
theorem EncodeLength.movReg (d s : Word) : EncodeLength.Statement (.movReg d s) := rfl
theorem EncodeLength.addReg (d s : Word) : EncodeLength.Statement (.addReg d s) := rfl
theorem EncodeLength.subReg (d s : Word) : EncodeLength.Statement (.subReg d s) := rfl
theorem EncodeLength.jmp (t : Word) : EncodeLength.Statement (.jmp t) := rfl
theorem EncodeLength.cmp (tA vA tB vB : Word) : EncodeLength.Statement (.cmp tA vA tB vB) := rfl
theorem EncodeLength.je (t : Word) : EncodeLength.Statement (.je t) := rfl
theorem EncodeLength.jne (t : Word) : EncodeLength.Statement (.jne t) := rfl

/-- The operand check of the decoder passes exactly for the well-formed instructions (R93). -/
def CheckIffWellFormed.Statement (i : Instr) : Prop := operandCheck i = .ok () ↔ i.wellFormed = true

/-- One register-number word, checked. -/
theorem check_one (w : Word) : (do let _ ← regOf w; return () : Except DecodeError Unit) = .ok () ↔ regIdOk w = true := by
  rcases regOf_cases w with ⟨r, rfl, h⟩ | ⟨hw, h⟩
  · rw [h]; exact iff_of_true rfl (regIdOk_iff.2 ⟨r, by simp⟩)
  · rw [h]
    refine iff_of_false (by intro h; cases h) ?_
    simp only [regIdOk, decide_eq_true_eq, Config.numRegs]; omega

/-- Two register-number words, checked in order. -/
theorem check_two (d s : Word) :
    (do let _ ← regOf d; let _ ← regOf s; return () : Except DecodeError Unit) = .ok () ↔
      (regIdOk d && regIdOk s) = true := by
  rcases regOf_cases d with ⟨r, rfl, h⟩ | ⟨hw, h⟩
  · have hr : regIdOk r.number = true := regIdOk_iff.2 ⟨r, by simp⟩
    rw [hr, Bool.true_and, ← check_one s, h]; rfl
  · have hr : regIdOk d = false := by simp only [regIdOk, decide_eq_false_iff_not, Config.numRegs]; omega
    rw [hr, h]; simp only [Bool.false_and]; constructor <;> intro h <;> cases h

theorem CheckIffWellFormed.hlt : CheckIffWellFormed.Statement .hlt := by
  simp [CheckIffWellFormed.Statement, operandCheck, Instr.wellFormed]
theorem CheckIffWellFormed.movImm (r i : Word) : CheckIffWellFormed.Statement (.movImm r i) := check_one r
theorem CheckIffWellFormed.addImm (r i : Word) : CheckIffWellFormed.Statement (.addImm r i) := check_one r
theorem CheckIffWellFormed.subImm (r i : Word) : CheckIffWellFormed.Statement (.subImm r i) := check_one r
theorem CheckIffWellFormed.movReg (d s : Word) : CheckIffWellFormed.Statement (.movReg d s) := check_two d s
theorem CheckIffWellFormed.addReg (d s : Word) : CheckIffWellFormed.Statement (.addReg d s) := check_two d s
theorem CheckIffWellFormed.subReg (d s : Word) : CheckIffWellFormed.Statement (.subReg d s) := check_two d s
theorem CheckIffWellFormed.jmp (t : Word) : CheckIffWellFormed.Statement (.jmp t) := by
  simp [CheckIffWellFormed.Statement, operandCheck, Instr.wellFormed]
theorem CheckIffWellFormed.cmp (tA vA tB vB : Word) : CheckIffWellFormed.Statement (.cmp tA vA tB vB) := by
  unfold CheckIffWellFormed.Statement operandCheck Instr.wellFormed
  rw [Bool.and_eq_true, operandOk_iff, operandOk_iff]
  cases hA : operandOf tA vA <;> cases hB : operandOf tB vB <;>
    simp [hA, hB, bind, Except.bind, pure, Except.pure]
theorem CheckIffWellFormed.je (t : Word) : CheckIffWellFormed.Statement (.je t) := by
  simp [CheckIffWellFormed.Statement, operandCheck, Instr.wellFormed]
theorem CheckIffWellFormed.jne (t : Word) : CheckIffWellFormed.Statement (.jne t) := by
  simp [CheckIffWellFormed.Statement, operandCheck, Instr.wellFormed]

/-- For every instruction: its operand check passes exactly when it is well-formed. -/
theorem check_iff_wellFormed (i : Instr) : operandCheck i = .ok () ↔ i.wellFormed = true := by
  cases i with
  | hlt => exact CheckIffWellFormed.hlt
  | movImm r v => exact CheckIffWellFormed.movImm r v
  | addImm r v => exact CheckIffWellFormed.addImm r v
  | subImm r v => exact CheckIffWellFormed.subImm r v
  | movReg d s => exact CheckIffWellFormed.movReg d s
  | addReg d s => exact CheckIffWellFormed.addReg d s
  | subReg d s => exact CheckIffWellFormed.subReg d s
  | jmp t => exact CheckIffWellFormed.jmp t
  | cmp tA vA tB vB => exact CheckIffWellFormed.cmp tA vA tB vB
  | je t => exact CheckIffWellFormed.je t
  | jne t => exact CheckIffWellFormed.jne t

end Sys2Proof.Laws
end

