-- ==== Sys2Proof/Laws/Step.lean ====
section
/-! SUPPORT. What a step can do, said once. -/

namespace Sys2Proof.Machine

/-- Everything a step that answers a next state can be: the abnormal halt of what the decoder reports at IP, or the
effect of the instruction it reads there. -/
theorem step_cases {s t : State} (h : step s = .next t) :
    s.status = .running ∧
      ((∃ e, s.mem.decodeAt s.pc = .error e ∧ t = s.abnormalHalt e) ∨
        ∃ i, s.mem.decodeAt s.pc = .ok i ∧ i.wellFormed = true ∧ exec i s = .next t) := by
  unfold step at h
  split at h
  · cases h
  · cases h
  · refine ⟨‹_›, ?_⟩
    split at h
    · rename_i e he; exact .inl ⟨e, he, by cases h; rfl⟩
    · rename_i i hi
      exact .inr ⟨i, hi, (Laws.check_iff_wellFormed i).1 (decode_eq_ok.1 hi).2, h⟩

/-! `withFetchWord` changes the memory and the status alone. -/

@[simp] theorem State.withFetchWord_regs (s : State) (nbits w : Nat) : (s.withFetchWord nbits w).regs = s.regs := rfl

@[simp] theorem State.withFetchWord_status (s : State) (nbits w : Nat) :
    (s.withFetchWord nbits w).status = .running := rfl

@[simp] theorem State.withFetchWord_mem (s : State) (nbits w : Nat) :
    (s.withFetchWord nbits w).mem = s.mem.placeAt s.pc nbits w := rfl

end Sys2Proof.Machine
end

