-- ==== Sys2Proof/Tests/Slice0.lean ====
section
/-! SUPPORT. The model's own tests: ill-formed terms refused, words written out from the encoding tables decoded, single
steps from the vectors of 95_test_vectors.md, and for each statement with hypotheses a witness that meets them. -/

namespace Sys2Proof.Tests
open Sys2Proof Sys2Proof.Machine

/-! ### Ill-formed terms, one for each check -/

theorem test_illformed_movImm : (Instr.movImm 7 0).wellFormed = false := by decide
theorem test_illformed_addImm : (Instr.addImm 7 0).wellFormed = false := by decide
theorem test_illformed_subImm : (Instr.subImm 65535 0).wellFormed = false := by decide
theorem test_illformed_movReg_first : (Instr.movReg 7 0).wellFormed = false := by decide
theorem test_illformed_movReg_second : (Instr.movReg 0 7).wellFormed = false := by decide
theorem test_illformed_addReg_first : (Instr.addReg 7 0).wellFormed = false := by decide
theorem test_illformed_addReg_second : (Instr.addReg 0 7).wellFormed = false := by decide
theorem test_illformed_subReg_first : (Instr.subReg 7 0).wellFormed = false := by decide
theorem test_illformed_subReg_second : (Instr.subReg 0 7).wellFormed = false := by decide
theorem test_illformed_cmp_tagA : (Instr.cmp 2 0 1 0).wellFormed = false := by decide
theorem test_illformed_cmp_valA : (Instr.cmp 0 7 1 0).wellFormed = false := by decide
theorem test_illformed_cmp_tagB : (Instr.cmp 1 0 2 0).wellFormed = false := by decide
theorem test_illformed_cmp_valB : (Instr.cmp 1 0 0 7).wellFormed = false := by decide
/-- 7 under tag 1 is an immediate, no register (vector CP14). -/
theorem test_wellformed_cmp_imm : (Instr.cmp 1 7 1 7).wellFormed = true := by decide

/-! ### Words written out from the format tables (30_encoding.md R82 to R87) -/

theorem test_decode_hlt : decodeWords [0b0000000000000000] = .ok .hlt := by decide
theorem test_decode_movImm : decodeWords [0b0000000000000001, 0b0000000000000011, 0b1111111111111111] =
    .ok (.movImm 3 65535) := by decide
theorem test_decode_addImm : decodeWords [0b0000000000000010, 0b0000000000000110, 0b0000000000000001] =
    .ok (.addImm 6 1) := by decide
theorem test_decode_subImm : decodeWords [0b0000000000000011, 0b0000000000000010, 0b1000000000000001] =
    .ok (.subImm 2 0x8001) := by decide
theorem test_decode_movReg : decodeWords [0b0000000000000100, 0b0000000000000001, 0b0000000000000101] =
    .ok (.movReg 1 5) := by decide
theorem test_decode_addReg : decodeWords [0b0000000000000101, 0b0000000000000100, 0b0000000000000000] =
    .ok (.addReg 4 0) := by decide
theorem test_decode_subReg : decodeWords [0b0000000000000110, 0b0000000000000000, 0b0000000000000110] =
    .ok (.subReg 0 6) := by decide
theorem test_decode_jmp : decodeWords [0b0000000000000111, 0b0000000000001001] = .ok (.jmp 9) := by decide
theorem test_decode_cmp : decodeWords [0b0000000000001000, 0b0000000000000000, 0b0000000000000110,
    0b0000000000000001, 0b0000000100000000] = .ok (.cmp 0 6 1 256) := by decide
theorem test_decode_je : decodeWords [0b0000000000001001, 0b0000000111110100] = .ok (.je 500) := by decide
theorem test_decode_jne : decodeWords [0b0000000000001010, 0b1111111111111111] = .ok (.jne 65535) := by decide

/-- The opcode word is compared whole: 257 is no MOV (R81, R92). -/
theorem test_decode_wholeOpcode : decodeWords [257, 0, 5] = .error ⟨.unknownOpcode, 257⟩ := by decide
/-- Vector MR7: word 1 is reported, not word 2. -/
theorem test_decode_firstWordReported : decodeWords [4, 9, 8] = .error ⟨.invalidRegister, 9⟩ := by decide
/-- Vector CP17: the first offending word is the tag of operand a. -/
theorem test_decode_firstTagReported : decodeWords [8, 2, 9, 3, 9] = .error ⟨.invalidTag, 2⟩ := by decide
/-- Vectors CP15 and CP16. -/
theorem test_decode_secondOperandReported : decodeWords [8, 0, 0, 3, 0] = .error ⟨.invalidTag, 3⟩ ∧
    decodeWords [8, 0, 0, 0, 9] = .error ⟨.invalidRegister, 9⟩ := by decide

/-- The table's numbering of bits: the second word is bits 31 to 16, and bits from nbits on are 0. -/
theorem test_decodeTableWord : decodeTableWord 48 0xFFFF00030001 = some (.movImm 3 65535) ∧
    decodeTableWord 16 0xFFFF00030001 = some (.movImm 0 0) ∧ decodeTableWord 16 11 = none := by decide

/-! ### Single steps: the vectors of 95_test_vectors.md -/

/-- A running state with words at `a` and on, IP at `a`, and the other registers as given. -/
def stateAt (a : Word) (ws : List Word) (ax bx cx flags : Word) : State where
  mem := Memory.writeWords [] a ws
  regs := { ax := ax, bx := bx, cx := cx, dx := 0, sp := 0, ip := a, flags := flags }
  status := .running

/-- What a step leaves in two registers and the status. -/
def after (s : State) (r : Reg) : Option (Word × Word × Status) :=
  match step s with
  | .next t => some (t.readReg r, t.pc, t.status)
  | _ => none

/-- H2. -/
theorem test_hlt : after (stateAt 100 [0] 7 0 0 1) .ax = some (7, 100, .halted) := by decide
/-- M8: the instruction wraps past the top of memory. -/
theorem test_movImm_wraps : after (stateAt 65534 [1, 2, 9] 0 0 0 0) .cx = some (9, 1, .running) := by decide
/-- M7. -/
theorem test_movImm_invalid : after (stateAt 0 [1, 7, 5] 3 0 0 0) .ax =
    some (3, 0, .faulted .invalidRegister ⟨0, 7⟩) := by decide
/-- A1. -/
theorem test_addImm_wraps : after (stateAt 0 [2, 0, 2] 65535 0 0 0) .ax = some (1, 3, .running) := by decide
/-- A5: IP as the destination. -/
theorem test_addImm_ip : after (stateAt 20 [2, 5, 2] 0 0 0 0) .ip = some (25, 25, .running) := by decide
/-- S2. -/
theorem test_subImm_wraps : after (stateAt 0 [3, 0, 1] 0 0 0 0) .ax = some (65535, 3, .running) := by decide
/-- S3: only CMP reports equality. -/
theorem test_subImm_flags : after (stateAt 0 [3, 0, 5] 5 0 0 0) .flags = some (0, 3, .running) := by decide
/-- MR3: IP as the source. -/
theorem test_movReg_ip : after (stateAt 6 [4, 0, 5] 0 0 0 0) .ax = some (6, 9, .running) := by decide
/-- MR4. -/
theorem test_movReg_toIP : after (stateAt 0 [4, 5, 0] 100 0 0 0) .ax = some (100, 103, .running) := by decide
/-- AR2: source and destination the same register. -/
theorem test_addReg_same : after (stateAt 0 [5, 0, 0] 32768 0 0 0) .ax = some (0, 3, .running) := by decide
/-- AR4. -/
theorem test_addReg_ip : after (stateAt 10 [5, 5, 5] 0 0 0 0) .ip = some (23, 23, .running) := by decide
/-- SR4: which operand is subtracted from which. -/
theorem test_subReg_order : after (stateAt 0 [6, 0, 1] 3 5 0 0) .ax = some (65534, 3, .running) := by decide
/-- SR5. -/
theorem test_subReg_ip : after (stateAt 50 [6, 5, 5] 0 0 0 0) .ip = some (3, 3, .running) := by decide
/-- J1. -/
theorem test_jmp : after (stateAt 22 [7, 9] 0 0 0 0) .ax = some (0, 9, .running) := by decide
/-- CP18: five words across the top of memory. -/
theorem test_cmp_wraps : after (stateAt 65533 [8, 1, 1, 1, 1] 0 0 0 0) .flags = some (1, 2, .running) := by decide
/-- CP10b: an operand that names FLAGS reads the old value. -/
theorem test_cmp_flags : after (stateAt 0 [8, 0, 6, 1, 1] 0 0 0 2) .flags = some (0, 5, .running) := by decide
/-- JE5. -/
theorem test_je_taken : after (stateAt 65535 [9, 500] 0 0 0 1) .flags = some (1, 500, .running) := by decide
/-- JE3: FLAGS 2 is not taken. -/
theorem test_je_two : after (stateAt 8 [9, 13] 0 0 0 2) .flags = some (2, 10, .running) := by decide
/-- JN1. -/
theorem test_jne_taken : after (stateAt 17 [10, 6] 0 0 0 0) .flags = some (0, 6, .running) := by decide
/-- JN4. -/
theorem test_jne_not_taken : after (stateAt 17 [10, 6] 0 0 0 65535) .flags = some (65535, 19, .running) := by decide
/-- X2. -/
theorem test_unknownOpcode : after (stateAt 40 [65535] 0 0 0 0) .ax =
    some (0, 40, .faulted .unknownOpcode ⟨40, 65535⟩) := by decide
/-- The first step from reset with nothing loaded is a HLT (vector H1). -/
theorem test_reset_step : after State.reset .ax = some (0, 0, .halted) := by decide
/-- A fetch word is what the next step runs. -/
theorem test_withFetchWord : after (State.reset.withFetchWord 48 0x000500000001) .ax = some (5, 3, .running) := by decide

/-! ### The assembler: the vectors T1 to T24 and the examples E6 and E8 -/

theorem test_asm_comment : assembleLine "mov ax, 5 // five" = .ok (some (.movImm 0 5)) := by decide
theorem test_asm_negative : assembleLine "ADD BX, -1" = .ok (some (.addImm 1 65535)) := by decide
theorem test_asm_special : assembleLine "MOV IP, FLAGS" = .ok (some (.movReg 5 6)) := by decide
theorem test_asm_compare : assembleLine "CMP AX, -1" = .ok (some (.cmp 0 0 1 65535)) := by decide
theorem test_asm_compareRegs : assembleLine "CMP CX, DX" = .ok (some (.cmp 0 2 0 3)) := by decide
theorem test_asm_jump : assembleLine "JMP -1" = .ok (some (.jmp 65535)) := by decide
theorem test_asm_reduced : assembleLine "MOV AX, 65536" = .ok (some (.movImm 0 0)) := by decide
theorem test_asm_blank : assembleLine "   // indented" = .ok none := by decide
theorem test_asm_unknown : assembleLine "FOO AX, 1" = .error .unknownInstruction := by decide
theorem test_asm_badRegister : assembleLine "MOV AX, BZ" = .error .invalidOperand := by decide
theorem test_asm_jumpRegister : assembleLine "JMP AX" = .error .invalidOperand := by decide
theorem test_asm_immediateFirst : assembleLine "CMP 4, AX" = .error .invalidOperand := by decide
theorem test_asm_haltOperand : assembleLine "HLT 1" = .error .syntaxError := by decide
theorem test_asm_emptyOperand : assembleLine "MOV AX," = .error .syntaxError := by decide
theorem test_asm_secondComma : assembleLine "MOV AX, 1, 2" = .error .invalidOperand := by decide
theorem test_asm_loneMinus : assembleLine "MOV AX, -" = .error .invalidOperand := by decide
theorem test_asm_mnemonicFirst : assembleLine "FOO" = .error .unknownInstruction := by decide
/-- E8. -/
theorem test_asm_lineNumber : assemble ["// header", "", "MOV AX, 1  // one", "   // indented", "BAD"] =
    .error ⟨5, .unknownInstruction⟩ := by decide
theorem test_asm_image : assemble ["// header", "", "MOV AX, 1  // one", "   // indented", "HLT"] =
    .ok [(0, 1), (2, 1)] := by decide

/-- The outcome is a next state. -/
def isNext : Host.Outcome State Fault Refusal → Bool
  | .next _ => true
  | _ => false

theorem exists_next {o : Host.Outcome State Fault Refusal} (h : isNext o = true) : ∃ t, o = .next t := by
  cases o with
  | next t => exact ⟨t, rfl⟩
  | fault r => cases h
  | refused r => cases h

/-! ### Witnesses: each statement's hypotheses are met, clause by clause -/

theorem witness_loadedImage : ([1, 0, 5] : List Word).length ≤ 65536 := by decide

/-- Boundary values: the highest register number and the highest immediate. -/
theorem witness_decodeReadsBack : (Instr.movImm 6 65535).wellFormed = true ∧
    ∀ k (hk : k < (encode (.movImm 6 65535)).length),
      ([1, 6, 65535, 9] : List Word).getD k 0 = (encode (.movImm 6 65535))[k] := by decide

theorem witness_decodedEncodesBack : decode (fun i => ([8, 1, 65535, 0, 6] : List Word).getD i 0) =
    .ok (.cmp 1 65535 0 6) := by decide

/-- The words of a list, every word past its end being 0. -/
def wordsOf (ws : List Word) (i : Nat) : Word := ws.getD i 0

/-- The first illegal opcode word and the last legal one. -/
theorem witness_unknownOpcode : 10 < (wordsOf [11] 0).toNat ∧ ¬ 10 < (wordsOf [10] 0).toNat := by decide

theorem witness_lengths : (0 : Word).toNat = 0 ∧ (1 ≤ (1 : Word).toNat ∧ (6 : Word).toNat ≤ 6) ∧ (7 : Word).toNat = 7 ∧
    (8 : Word).toNat = 8 ∧ (9 : Word).toNat = 9 ∧ (10 : Word).toNat = 10 ∧ 10 < (11 : Word).toNat := by decide

/-- For each clause in turn, the words of an instruction that meets all of its hypotheses, at the boundary: a register
word 7, a tag 2, after operands that are legal. -/
theorem witness_firstIllegal :
    (let w := wordsOf [6, 7, 9]; 1 ≤ (w 0).toNat ∧ (w 0).toNat ≤ 6 ∧ 6 < (w 1).toNat) ∧
    (let w := wordsOf [4, 6, 7]; 4 ≤ (w 0).toNat ∧ (w 0).toNat ≤ 6 ∧ (w 1).toNat ≤ 6 ∧ 6 < (w 2).toNat) ∧
    (let w := wordsOf [8, 2, 9, 3, 9]; (w 0).toNat = 8 ∧ 1 < (w 1).toNat) ∧
    (let w := wordsOf [8, 0, 7, 3, 9]; (w 0).toNat = 8 ∧ (w 1).toNat = 0 ∧ 6 < (w 2).toNat) ∧
    (let w := wordsOf [8, 0, 6, 2, 9]; (w 0).toNat = 8 ∧ operandOk (w 1) (w 2) = true ∧ 1 < (w 3).toNat) ∧
    (let w := wordsOf [8, 1, 65535, 0, 7]
     (w 0).toNat = 8 ∧ operandOk (w 1) (w 2) = true ∧ (w 3).toNat = 0 ∧ 6 < (w 4).toNat) := by decide

/-- Two word sequences that agree on a JMP's two words and differ after them. -/
theorem witness_ownWords : let w := fun i => ([7, 9, 1] : List Word).getD i 0; let w' := fun i => ([7, 9, 2] : List Word).getD i 0
    w 0 = w' 0 ∧ (∀ n, opcodeLength? (w 0) = some n → ∀ k < n, w k = w' k) ∧ w 2 ≠ w' 2 := by
  refine ⟨by decide, fun n hn => ?_, by decide⟩
  have h : some 2 = some n := hn
  cases h; decide

/-- A running state whose IP holds an ADD: the hypotheses of both clauses. -/
theorem witness_stepRuns : let s := stateAt 65535 [2, 0, 2] 5 0 0 0
    s.status = .running ∧ s.mem.decodeAt s.pc = .ok (.addImm 0 2) ∧ (Instr.addImm 0 2).wellFormed = true ∧
    ∀ k (hk : k < (encode (.addImm 0 2)).length), s.mem.read (s.pc + BitVec.ofNat 16 k) = (encode (.addImm 0 2))[k] := by
  decide

theorem witness_abnormalHalt : let s := stateAt 0 [4, 0, 7] 0 0 0 0
    s.status = .running ∧ s.mem.decodeAt s.pc = .error ⟨.invalidRegister, 7⟩ := by decide

theorem witness_unknownAtIP : let s := stateAt 40 [11] 0 0 0 0
    s.status = .running ∧ 10 < (s.mem.read s.pc).toNat := by decide

theorem witness_running : State.reset.status = .running := rfl

theorem witness_ended : State.reset.halt.status = .halted ∧
    (State.reset.abnormalHalt ⟨.unknownOpcode, 11⟩).status = .faulted .unknownOpcode ⟨0, 11⟩ := ⟨rfl, rfl⟩

/-- A consistent state with a step, and one with a step that is an abnormal halt. -/
theorem witness_consistent : Consistent (stateAt 0 [1, 0, 5] 0 0 0 0) ∧ (∃ t, step (stateAt 0 [1, 0, 5] 0 0 0 0) = .next t) ∧
    Consistent (stateAt 0 [11] 0 0 0 0) ∧ ∃ t, step (stateAt 0 [11] 0 0 0 0) = .next t :=
  ⟨⟨Memory.writeWords_wf reset_mem_wf _ _, trivial⟩, exists_next (by decide),
    ⟨Memory.writeWords_wf reset_mem_wf _ _, trivial⟩, exists_next (by decide)⟩

theorem witness_image_wf : Memory.wf [(0, 1), (65535, 65535)] := by decide

theorem witness_steps : Steps State.reset State.reset.halt := .next (.refl _) rfl

theorem witness_writes : ∃ t, exec (.addReg 0 1) State.reset = .next t := exists_next (by decide)

/-- Two states that agree on AX and IP and differ in BX: `ADD AX, 2` reads AX and IP alone. -/
theorem witness_reads : let s := stateAt 0 [2, 0, 2] 5 0 0 0; let s' := stateAt 0 [2, 0, 2] 5 9 0 0
    (Instr.addImm 0 2).wellFormed = true ∧ (∀ r ∈ readRegs (.addImm 0 2), s.readReg r = s'.readReg r) ∧
    (∃ t, exec (.addImm 0 2) s = .next t) ∧ (∃ t, exec (.addImm 0 2) s' = .next t) ∧ s.status = s'.status :=
  ⟨by decide, by decide, exists_next (by decide), exists_next (by decide), rfl⟩

theorem witness_step_answers : ∃ t, step (stateAt 0 [2, 0, 2] 5 0 0 0) = .next t := exists_next (by decide)

theorem witness_notNamed : let s := stateAt 0 [2, 0, 2] 5 0 0 0
    s.mem.decodeAt s.pc = .ok (.addImm 0 2) ∧ (∃ t, step s = .next t) ∧ destination? (.addImm 0 2) ≠ some .sp ∧
    destination? (.addImm 0 2) ≠ some .flags ∧ ∀ tA vA tB vB, Instr.addImm 0 2 ≠ .cmp tA vA tB vB :=
  ⟨by decide, exists_next (by decide), by decide, by decide, fun _ _ _ _ => Instr.noConfusion⟩

theorem witness_flagsBoolean : let s := stateAt 0 [2, 0, 2] 5 0 0 1
    FlagsIsBoolean s ∧ (∃ t, step s = .next t) ∧ ∀ i, s.mem.decodeAt s.pc = .ok i → destination? i ≠ some .flags := by
  refine ⟨.inr rfl, exists_next (by decide), fun i hi => ?_⟩
  have h : Except.ok (Instr.addImm 0 2) = (Except.ok i : Except DecodeError Instr) := hi
  cases h; decide

/-- A JE that is not taken meets every hypothesis; so does a SUB with AX as its destination. -/
theorem witness_sequential : (Instr.je 9).wellFormed = true ∧ State.reset.readReg .flags ≠ 1 ∧
    destination? (.je 9) ≠ some .ip ∧ (Instr.subImm 0 1).wellFormed = true ∧ destination? (.subImm 0 1) ≠ some .ip ∧
    (State.reset.writeReg .flags 1).readReg .flags ≠ 0 := by decide

theorem witness_precise : let s := stateAt 0 [8, 2, 0, 1, 0] 0 0 0 0
    ∃ t, step s = .next t ∧ t.status = .faulted .invalidTag ⟨0, 2⟩ := ⟨_, rfl, rfl⟩

theorem witness_completes : (stateAt 3 [0] 0 0 0 0).mem.read 3 = 0 ∧ (stateAt 3 [7] 0 0 0 0).mem.read 3 = 7 ∧
    (stateAt 3 [9] 0 0 0 0).mem.read 3 = 9 ∧ (stateAt 3 [10] 0 0 0 0).mem.read 3 = 10 := by decide

/-- Two running states with the same registers that differ in a word the step does not fetch. -/
theorem witness_fetched : let s := stateAt 0 [7, 9, 1] 0 0 0 0; let s' := stateAt 0 [7, 9, 2] 0 0 0 0
    s.status = .running ∧ s'.status = .running ∧ s.regs = s'.regs ∧ s ≠ s' ∧
    ∀ a ∈ s.mem.fetchAddrs s.pc, s'.mem.read a = s.mem.read a := by
  refine ⟨rfl, rfl, rfl, by decide, fun a ha => ?_⟩
  have h : a ∈ ([0, 1] : List Word) := ha
  rcases List.mem_cons.1 h with rfl | h
  · decide
  · cases List.mem_singleton.1 h; decide

theorem witness_selfJump : let s := stateAt 5 [7, 5] 0 0 0 0; let s' := stateAt 5 [9, 5] 0 0 0 1
    s.status = .running ∧ s.mem.decodeAt s.pc = .ok (.jmp s.pc) ∧
    s'.status = .running ∧ s'.mem.decodeAt s'.pc = .ok (.je s'.pc) ∧ s'.readReg .flags = 1 := by decide

/-- FLAGS 0, 1 and 2, and a target off the sequential path. -/
theorem witness_complements : FlagsIsBoolean (stateAt 0 [] 0 0 0 0) ∧ FlagsIsBoolean (stateAt 0 [] 0 0 0 1) ∧
    ¬ FlagsIsBoolean (stateAt 0 [] 0 0 0 2) ∧ (9 : Word) ≠ (stateAt 0 [] 0 0 0 0).pc + 2 :=
  ⟨.inl rfl, .inr rfl, fun h => by cases h <;> contradiction, by decide⟩

theorem witness_jump_flags : (stateAt 0 [] 0 0 0 1).readReg .flags = 1 ∧ (stateAt 0 [] 0 0 0 2).readReg .flags ≠ 1 ∧
    (stateAt 0 [] 0 0 0 0).readReg .flags = 0 ∧ (stateAt 0 [] 0 0 0 2).readReg .flags ≠ 0 := by decide

/-- The first register number that is illegal. -/
theorem witness_invalidRegister : 6 < (7 : Word).toNat := by decide

theorem witness_complement : (65535 : Word).toNat = (65536 - (1 : Word).toNat) % 65536 ∧
    (0 : Word).toNat = (65536 - (0 : Word).toNat) % 65536 := by decide

/-- Both operands resolve, to equal words and to different ones; then, for each exception clause, words that meet it. -/
theorem witness_cmp : let s := stateAt 0 [] 7 7 8 0
    (s.resolve 0 0 = .ok 7 ∧ s.resolve 0 1 = .ok 7 ∧ s.resolve 0 2 = .ok 8 ∧ s.resolve 1 65535 = .ok 65535) ∧
    1 < (2 : Word).toNat ∧ 6 < (7 : Word).toNat ∧ operandOk 0 6 = true ∧ operandOk 1 7 = true := by decide

theorem witness_runEnds : RunEnds State.reset State.reset.halt ∧ runFor 1 State.reset = State.reset.halt :=
  ⟨⟨.next (.refl _) rfl, by decide⟩, by decide⟩

theorem witness_observe : State.reset.status = .running ∧ State.reset.halt.status ≠ .running := by decide

theorem witness_assembledLine : assembleLine "sub sp, 2" = .ok (some (.subImm 4 2)) ∧ Memory.wf [] := by decide

theorem witness_assembled : assemble ["MOV AX, 1", "", "HLT"] = .ok [(0, 1), (2, 1)] ∧
    spelledInstrs ["MOV AX, 1", "", "HLT"] = [.movImm 0 1] ++ .hlt :: [] := by decide

theorem witness_accepted : (∀ text ∈ ["MOV AX, 1", "HLT"], ∃ r, assembleLine text = .ok r) ∧
    ((spelledInstrs ["MOV AX, 1", "HLT"]).flatMap encode).length ≤ 65536 := by
  refine ⟨fun text h => ?_, by decide⟩
  rcases List.mem_cons.1 h with rfl | h
  · exact ⟨_, test_one⟩
  · rcases List.mem_cons.1 h with rfl | h
    · exact ⟨_, test_two⟩
    · cases h
where
  test_one : assembleLine "MOV AX, 1" = .ok (some (.movImm 0 1)) := by decide
  test_two : assembleLine "HLT" = .ok (some .hlt) := by decide

theorem witness_malformed : assemble ["HLT", "BAD"] = .error ⟨2, .unknownInstruction⟩ := by decide

theorem witness_skipped : cleanLine " \t // x" = [] ∧ ∀ c ∈ [' ', '\t'], isBlank c = true :=
  ⟨by decide, List.all_eq_true.1 (show [' ', '\t'].all isBlank = true by decide)⟩

theorem witness_noSlash : '/' ∉ "HLT ".toList := by decide

theorem witness_case : upper "Mov Ax, 5".toList = upper "MOV aX, 5".toList ∧ "Mov Ax, 5" ≠ "MOV aX, 5" := by decide

theorem witness_classify : classify "ax".toList = .ok (.reg .ax) ∧ classify "FLAGS".toList = .ok (.reg .flags) ∧
    classify "-5".toList = .ok (.imm (-5)) := by decide

/-- The last cursor at which a CMP fits, and the first at which it does not. -/
theorem witness_exhausted : 65531 + (encode (.cmp 0 0 1 0)).length ≤ 65536 ∧
    65536 < 65532 + (encode (.cmp 0 0 1 0)).length := by decide

theorem witness_assembledCompare : assembleLine "CMP AX, 4" = .ok (some (.cmp 0 0 1 4)) := by decide

end Sys2Proof.Tests
end

section
/-! PROOFS. The state after reset (10_state.md R42, 70_reset_and_hazards.md R270). -/

namespace Sys2Proof.Machine

/-- Reset clears the whole register file: IP too, because the entry point is address 0 (R39, R42). -/
@[simp] theorem State.readReg_resetWith (image : Memory) (r : Reg) : (State.resetWith image).readReg r = 0 := by
  cases r <;> rfl

/-- A word no one loaded is 0 (R42). -/
@[simp] theorem Memory.read_nil (a : Word) : Memory.read [] a = 0 := rfl

/-- Settles O1: the state after reset with an image, field by field; with no image loaded it is the case of the empty
image, whose every word reads 0. -/
theorem resetZeroesRegistersAndRuns : Obligations.ResetZeroesRegistersAndRuns := by
  have with_image (image : Memory) : (∀ r : Reg, (State.resetWith image).readReg r = 0) ∧
      (State.resetWith image).status = .running ∧
      ∀ a : Word, (State.resetWith image).mem.read a = image.read a :=
    ⟨State.readReg_resetWith image, State.resetWith_status image, fun a => by rw [State.resetWith_mem]⟩
  obtain ⟨no_image_regs, no_image_status, no_image_mem⟩ := with_image []
  exact ⟨with_image, no_image_status, no_image_regs, fun a => (no_image_mem a).trans (Memory.read_nil a)⟩

end Sys2Proof.Machine
end

section
/-! PROOFS. The instruction length (30_encoding.md R88): one fact per row of its table, then the table. -/

namespace Sys2Proof

/-- HLT is its opcode word alone (R82). -/
theorem opcodeLength?_of_eq_zero {op : Word} (h : op.toNat = 0) : opcodeLength? op = some 1 := by
  simp [opcodeLength?, h]

/-- The lengths of formats RI and RR, the two forms each of MOV, ADD and SUB (R84, R85). -/
theorem opcodeLength?_of_mem_one_six {op : Word} (hlo : 1 ≤ op.toNat) (hhi : op.toNat ≤ 6) :
    opcodeLength? op = some 3 := by
  unfold opcodeLength?
  interval_cases op.toNat <;> rfl

/-- The length of format A, the three jumps (R83). -/
theorem opcodeLength?_of_jump {op : Word} (h : op.toNat = 7 ∨ op.toNat = 9 ∨ op.toNat = 10) :
    opcodeLength? op = some 2 := by
  obtain hjmp | hje | hjne := h
  · simp [opcodeLength?, hjmp]
  · simp [opcodeLength?, hje]
  · simp [opcodeLength?, hjne]

/-- The length of format C, which carries a tag before each operand (R86). -/
theorem opcodeLength?_of_eq_eight {op : Word} (h : op.toNat = 8) : opcodeLength? op = some 5 := by
  simp [opcodeLength?, h]

/-- The words with no length are the words that are no opcode (R88, R92). -/
theorem opcodeLength?_eq_none {op : Word} : opcodeLength? op = none ↔ 10 < op.toNat := by
  constructor
  · contrapose!
    intro hle
    unfold opcodeLength?
    interval_cases op.toNat <;> simp
  · intro hgt
    obtain ⟨n, hn⟩ := Nat.exists_eq_add_of_le' hgt
    simp [opcodeLength?, hn]

/-- Settles O7: each clause is one row of the length table. -/
theorem lengthIsFixedByOpcodeWord : Obligations.LengthIsFixedByOpcodeWord := fun _ =>
  ⟨opcodeLength?_of_eq_zero, opcodeLength?_of_mem_one_six, opcodeLength?_of_jump, opcodeLength?_of_eq_eight,
    opcodeLength?_eq_none.2⟩

end Sys2Proof
end

section
/-! PROOFS. HLT (40_cycle_and_hlt.md R146). -/

namespace Sys2Proof.Machine

/-- HLT has format Z: its opcode word, with no operand word after it (R82). -/
theorem encode_hlt : encode .hlt = [0] := rfl

/-- HLT answers the halted state from every state, for it has no operand word to check. -/
@[simp] theorem exec_hlt (s : State) : exec .hlt s = .next s.halt := rfl

/-- The normal end of a run leaves every register as it is, so IP still holds the address of the HLT (R146). -/
theorem State.halt_sameRegs (s : State) : SameRegsExcept [] s s.halt := fun r _ => s.readReg_halt r

/-- The normal end of a run leaves memory as it is. -/
theorem State.halt_sameMemory (s : State) : SameMemory s s.halt := fun a => by rw [State.halt_mem]

/-- Settles O28: the state HLT answers is `s.halt`, whose status is HALTED and whose registers and memory are those of
`s`. -/
theorem hltHaltsAndChangesNothingElse : Obligations.HltHaltsAndChangesNothingElse :=
  ⟨encode_hlt, fun s => ⟨s.halt, exec_hlt s, s.halt_status, s.halt_sameRegs, s.halt_sameMemory⟩⟩

end Sys2Proof.Machine
end

section
/-! PROOFS. MOV, ADD and SUB (41_mov_add_sub.md R171 to R178): what a write of the destination followed by the advance of
IP leaves, then the two formats over any ALU operation, then the six instructions. -/

namespace Sys2Proof.Machine

/-! ### A register written, then IP advanced -/

/-- The destination holds the value written, and 3 more if it is IP, which the advance moves on (R178). -/
theorem State.readReg_writeReg_advanceIP (s : State) (d : Reg) (v : Word) :
    ((s.writeReg d v).advanceIP 3).readReg d = v + if d = .ip then 3 else 0 := by
  by_cases hd : d = .ip
  · subst hd
    rw [State.readReg_ip, State.pc_advanceIP, ← State.readReg_ip, State.readReg_writeReg_same, if_pos rfl]
  · rw [State.readReg_advanceIP_other _ _ hd, State.readReg_writeReg_same, if_neg hd]
    exact (BitVec.add_zero v).symm

/-- A destination other than IP leaves the advance of IP to start from the instruction's own address (R143). -/
theorem State.toNat_pc_writeReg_advanceIP (s : State) {d : Reg} (v : Word) (hd : d ≠ .ip) :
    ((s.writeReg d v).advanceIP 3).pc.toNat = (s.pc.toNat + 3) % 65536 := by
  rw [State.pc_advanceIP, ← State.readReg_ip, State.readReg_writeReg_other s v hd.symm, State.readReg_ip]
  exact BitVec.toNat_add ..

/-- The frame of a write followed by the advance of IP (R26). -/
theorem State.changesOnly_writeReg_advanceIP (s : State) (d : Reg) (v n : Word) :
    ChangesOnly [d, .ip] s ((s.writeReg d v).advanceIP n) := by
  refine ⟨fun q hq => ?_, fun a => by simp, by simp⟩
  obtain ⟨hqd, hqip⟩ : q ≠ d ∧ q ≠ .ip := by simpa using hq
  rw [State.readReg_advanceIP_other _ _ hqip, State.readReg_writeReg_other s v hqd]

/-- The abnormal halt records its error and changes no register and no memory word (R240, R243). -/
theorem State.haltsAbnormally_abnormalHalt (s : State) (e : DecodeError) :
    HaltsAbnormally e.cause e.word s (s.abnormalHalt e) :=
  ⟨s.abnormalHalt_status e, fun q _ => s.readReg_abnormalHalt e q, fun a => by rw [State.abnormalHalt_mem]⟩

/-! ### The ALU's results as numbers (R177) -/

/-- The advance of IP, added to a result only where IP is the destination, as a sum modulo 65536. -/
theorem toNat_add_advance (v : Word) (d : Reg) :
    (v + if d = .ip then 3 else 0).toNat = (v.toNat + if d = .ip then 3 else 0) % 65536 := by
  rw [BitVec.toNat_add, apply_ite BitVec.toNat]; rfl

theorem toNat_aluAdd (x y : Word) : (aluAdd x y).toNat = (x.toNat + y.toNat) % 65536 := BitVec.toNat_add x y

/-- The difference is the non-negative remainder of the exact one (R8). -/
theorem toNat_aluSub (x y : Word) : ((aluSub x y).toNat : Int) = ((x.toNat : Int) - (y.toNat : Int)) % 65536 := by
  have hx := x.isLt
  have hy := y.isLt
  rw [aluSub, BitVec.toNat_sub]
  omega

/-- A word passed to the destination. -/
theorem toNat_aluPass_add_advance (x y : Word) (d : Reg) :
    (aluPass x y + if d = .ip then 3 else 0).toNat = (y.toNat + if d = .ip then 3 else 0) % 65536 :=
  toNat_add_advance y d

/-- A sum written to the destination: the advance of IP is one more term of it. -/
theorem toNat_aluAdd_add_advance (x y : Word) (d : Reg) :
    (aluAdd x y + if d = .ip then 3 else 0).toNat = (x.toNat + y.toNat + if d = .ip then 3 else 0) % 65536 := by
  rw [toNat_add_advance, toNat_aluAdd, Nat.mod_add_mod]

/-- A difference written to the destination: the advance of IP is one more term of it. -/
theorem toNat_aluSub_add_advance (x y : Word) (d : Reg) :
    ((aluSub x y + if d = .ip then 3 else 0).toNat : Int) =
      ((x.toNat : Int) - (y.toNat : Int) + if d = .ip then 3 else 0) % 65536 := by
  rw [toNat_add_advance]
  push_cast
  rw [toNat_aluSub, Int.emod_add_emod]

/-! ### The two formats, over any ALU operation -/

/-- Format RI with a legal destination. -/
theorem execRegImm_effect (op : Word → Word → Word) (d : Reg) (i : Word) (s : State) :
    ∃ t, execRegImm op d.number i s = .next t ∧
      t.readReg d = op (s.readReg d) i + (if d = .ip then 3 else 0) ∧
      (d ≠ .ip → t.pc.toNat = (s.pc.toNat + 3) % 65536) ∧ ChangesOnly [d, .ip] s t :=
  ⟨_, execRegImm_number op d i s, s.readReg_writeReg_advanceIP d _, s.toNat_pc_writeReg_advanceIP _,
    s.changesOnly_writeReg_advanceIP d _ 3⟩

/-- Format RR with two legal registers: the value written is the operation on what both held before (R143). -/
theorem execRegReg_effect (op : Word → Word → Word) (d r : Reg) (s : State) :
    ∃ t, execRegReg op d.number r.number s = .next t ∧
      t.readReg d = op (s.readReg d) (s.readReg r) + (if d = .ip then 3 else 0) ∧
      (d ≠ .ip → t.pc.toNat = (s.pc.toNat + 3) % 65536) ∧ ChangesOnly [d, .ip] s t :=
  ⟨_, execRegReg_number op d r s, s.readReg_writeReg_advanceIP d _, s.toNat_pc_writeReg_advanceIP _,
    s.changesOnly_writeReg_advanceIP d _ 3⟩

/-- Format RI with an illegal register number (R244). -/
theorem execRegImm_halts (op : Word → Word → Word) {r : Word} (i : Word) (s : State) (h : 6 < r.toNat) :
    ∃ t, execRegImm op r i s = .next t ∧ HaltsAbnormally .invalidRegister r s t :=
  ⟨_, execRegImm_invalid op i s h, s.haltsAbnormally_abnormalHalt _⟩

/-- Format RR with an illegal first number, reported whatever the second is (R247). -/
theorem execRegReg_halts_first (op : Word → Word → Word) {d : Word} (r : Word) (s : State) (h : 6 < d.toNat) :
    ∃ t, execRegReg op d r s = .next t ∧ HaltsAbnormally .invalidRegister d s t :=
  ⟨_, execRegReg_invalid_first op r s h, s.haltsAbnormally_abnormalHalt _⟩

/-- Format RR with an illegal second number after a legal first (R247). -/
theorem execRegReg_halts_second (op : Word → Word → Word) (d : Reg) {r : Word} (s : State) (h : 6 < r.toNat) :
    ∃ t, execRegReg op d.number r s = .next t ∧ HaltsAbnormally .invalidRegister r s t :=
  ⟨_, execRegReg_invalid_second op d s h, s.haltsAbnormally_abnormalHalt _⟩

/-! ### The six instructions: encoding, and format with ALU operation -/

theorem encode_movImm (r i : Word) : encode (.movImm r i) = [1, r, i] := rfl
theorem encode_addImm (r i : Word) : encode (.addImm r i) = [2, r, i] := rfl
theorem encode_subImm (r i : Word) : encode (.subImm r i) = [3, r, i] := rfl
theorem encode_movReg (d r : Word) : encode (.movReg d r) = [4, d, r] := rfl
theorem encode_addReg (d r : Word) : encode (.addReg d r) = [5, d, r] := rfl
theorem encode_subReg (d r : Word) : encode (.subReg d r) = [6, d, r] := rfl

theorem exec_movImm (r i : Word) (s : State) : exec (.movImm r i) s = execRegImm aluPass r i s := rfl
theorem exec_addImm (r i : Word) (s : State) : exec (.addImm r i) s = execRegImm aluAdd r i s := rfl
theorem exec_subImm (r i : Word) (s : State) : exec (.subImm r i) s = execRegImm aluSub r i s := rfl
theorem exec_movReg (d r : Word) (s : State) : exec (.movReg d r) s = execRegReg aluPass d r s := rfl
theorem exec_addReg (d r : Word) (s : State) : exec (.addReg d r) s = execRegReg aluAdd d r s := rfl
theorem exec_subReg (d r : Word) (s : State) : exec (.subReg d r) s = execRegReg aluSub d r s := rfl

/-! ### The statements -/

/-- Settles O33: format RI over the pass operation, whose result is the immediate. -/
theorem movImmediateLoadsRegister : Obligations.MovImmediateLoadsRegister := by
  intro s i
  simp only [exec_movImm]
  refine ⟨fun r => encode_movImm r i, fun d => ?_, fun r => execRegImm_halts aluPass i s⟩
  obtain ⟨t, ht, hvalue, hframe⟩ := execRegImm_effect aluPass d i s
  exact ⟨t, ht, by rw [hvalue, toNat_aluPass_add_advance], hframe⟩

/-- Settles O34: format RI over addition. -/
theorem addImmediateAddsModulo65536 : Obligations.AddImmediateAddsModulo65536 := by
  intro s i
  simp only [exec_addImm]
  refine ⟨fun r => encode_addImm r i, fun d => ?_, fun r => execRegImm_halts aluAdd i s⟩
  obtain ⟨t, ht, hvalue, hframe⟩ := execRegImm_effect aluAdd d i s
  exact ⟨t, ht, by rw [hvalue, toNat_aluAdd_add_advance], hframe⟩

/-- Settles O35: format RI over subtraction. -/
theorem subImmediateSubtractsModulo65536 : Obligations.SubImmediateSubtractsModulo65536 := by
  intro s i
  simp only [exec_subImm]
  refine ⟨fun r => encode_subImm r i, fun d => ?_, fun r => execRegImm_halts aluSub i s⟩
  obtain ⟨t, ht, hvalue, hframe⟩ := execRegImm_effect aluSub d i s
  exact ⟨t, ht, by rw [hvalue, toNat_aluSub_add_advance], hframe⟩

/-- Settles O36: format RR over the pass operation, whose result is what the source held before the step; IP held the
instruction's own address then. -/
theorem movRegisterCopiesRegister : Obligations.MovRegisterCopiesRegister := by
  intro s
  simp only [exec_movReg]
  refine ⟨encode_movReg, fun d r => ?_, fun d r => execRegReg_halts_first aluPass r s,
    fun d r => execRegReg_halts_second aluPass d s⟩
  obtain ⟨t, ht, hvalue, hframe⟩ := execRegReg_effect aluPass d r s
  exact ⟨t, ht, by rw [hvalue, toNat_aluPass_add_advance], hframe⟩

/-- Settles O37: format RR over addition. -/
theorem addRegisterAddsModulo65536 : Obligations.AddRegisterAddsModulo65536 := by
  intro s
  simp only [exec_addReg]
  refine ⟨encode_addReg, fun d r => ?_, fun d r => execRegReg_halts_first aluAdd r s,
    fun d r => execRegReg_halts_second aluAdd d s⟩
  obtain ⟨t, ht, hvalue, hframe⟩ := execRegReg_effect aluAdd d r s
  exact ⟨t, ht, by rw [hvalue, toNat_aluAdd_add_advance], hframe⟩

/-- Settles O38: format RR over subtraction. -/
theorem subRegisterSubtractsModulo65536 : Obligations.SubRegisterSubtractsModulo65536 := by
  intro s
  simp only [exec_subReg]
  refine ⟨encode_subReg, fun d r => ?_, fun d r => execRegReg_halts_first aluSub r s,
    fun d r => execRegReg_halts_second aluSub d s⟩
  obtain ⟨t, ht, hvalue, hframe⟩ := execRegReg_effect aluSub d r s
  exact ⟨t, ht, by rw [hvalue, toNat_aluSub_add_advance], hframe⟩

end Sys2Proof.Machine
end

section
/-! PROOFS. CMP (42_cmp.md R200, R202): what its operands answer when they are illegal, the state its effect leaves, then
`execCmp` by what the two operands resolve to. -/

namespace Sys2Proof

/-- A tag above 1 is reported whatever its value word is (R245, R247). -/
theorem operandOf_invalidTag {t : Word} (v : Word) (h : 1 < t.toNat) : operandOf t v = .error ⟨.invalidTag, t⟩ := by
  obtain ⟨_, rfl, -, -⟩ | ⟨rfl, -⟩ | ⟨rfl, -, -⟩ | ⟨-, herror⟩ := operandOf_cases t v
  · exact absurd h (by decide)
  · exact absurd h (by decide)
  · exact absurd h (by decide)
  · exact herror

/-- A value word above 6 under tag 0 is no register number (R244). -/
theorem operandOf_invalidRegister {v : Word} (h : 6 < v.toNat) : operandOf 0 v = .error ⟨.invalidRegister, v⟩ := by
  change (regOf v).map Operand.reg = _
  rw [regOf_invalid h]
  rfl

namespace Machine

/-! ### The operands -/

theorem State.resolve_invalidTag (s : State) {t : Word} (v : Word) (h : 1 < t.toNat) :
    s.resolve t v = .error ⟨.invalidTag, t⟩ :=
  State.resolve_of_error (operandOf_invalidTag v h)

theorem State.resolve_invalidRegister (s : State) {v : Word} (h : 6 < v.toNat) :
    s.resolve 0 v = .error ⟨.invalidRegister, v⟩ :=
  State.resolve_of_error (operandOf_invalidRegister h)

/-- A legal operand has a value in every state (R200). -/
theorem State.exists_resolve_of_operandOk (s : State) {t v : Word} (h : operandOk t v = true) :
    ∃ p, s.resolve t v = .ok p := by
  obtain ⟨o, ho⟩ := operandOk_iff.1 h
  exact ⟨s.operandValue o, State.resolve_of_operandOf ho⟩

/-! ### The comparator, and FLAGS written before IP advances -/

theorem equalFlag_of_eq {p q : Word} (h : p = q) : equalFlag p q = 1 := if_pos h

theorem equalFlag_of_ne {p q : Word} (h : p ≠ q) : equalFlag p q = 0 := if_neg h

theorem State.readReg_flags_writeReg_advanceIP (s : State) (v n : Word) :
    ((s.writeReg .flags v).advanceIP n).readReg .flags = v := by
  rw [State.readReg_advanceIP_other _ _ (by decide), State.readReg_writeReg_same]

/-- The write of FLAGS leaves IP for the advance to start from (R202). -/
theorem State.pc_writeReg_flags_advanceIP (s : State) (v n : Word) :
    ((s.writeReg .flags v).advanceIP n).pc = s.pc + n := by
  rw [State.pc_advanceIP, ← State.readReg_ip, State.readReg_writeReg_other s v (by decide), State.readReg_ip]

/-! ### `execCmp`, by what its operands resolve to -/

theorem encode_cmp (tA vA tB vB : Word) : encode (.cmp tA vA tB vB) = [8, tA, vA, tB, vB] := rfl

theorem exec_cmp (tA vA tB vB : Word) (s : State) : exec (.cmp tA vA tB vB) s = execCmp tA vA tB vB s := rfl

/-- Both operands resolve: the write of FLAGS, then the advance of IP. -/
theorem execCmp_of_resolve {s : State} {tA vA tB vB p q : Word} (hA : s.resolve tA vA = .ok p)
    (hB : s.resolve tB vB = .ok q) :
    execCmp tA vA tB vB s = .next ((s.writeReg .flags (equalFlag p q)).advanceIP 5) := by
  unfold execCmp; rw [hA, hB]; rfl

/-- Operand a does not resolve: its error is reported, whatever operand b is (R247). -/
theorem execCmp_of_error_first {s : State} {tA vA : Word} {e : DecodeError} (tB vB : Word)
    (hA : s.resolve tA vA = .error e) : execCmp tA vA tB vB s = .next (s.abnormalHalt e) := by
  unfold execCmp; rw [hA]; rfl

/-- Operand a resolves and operand b does not: the error of operand b is reported (R247). -/
theorem execCmp_of_error_second {s : State} {tA vA tB vB p : Word} {e : DecodeError} (hA : s.resolve tA vA = .ok p)
    (hB : s.resolve tB vB = .error e) : execCmp tA vA tB vB s = .next (s.abnormalHalt e) := by
  unfold execCmp; rw [hA, hB]; rfl

/-- The effect of CMP where both operands resolve (R202). -/
theorem execCmp_effect {s : State} {tA vA tB vB p q : Word} (hA : s.resolve tA vA = .ok p)
    (hB : s.resolve tB vB = .ok q) :
    ∃ t, execCmp tA vA tB vB s = .next t ∧ t.readReg .flags = equalFlag p q ∧ t.pc = s.pc + 5 ∧
      ChangesOnly [.flags, .ip] s t :=
  ⟨_, execCmp_of_resolve hA hB, s.readReg_flags_writeReg_advanceIP _ 5, s.pc_writeReg_flags_advanceIP _ 5,
    s.changesOnly_writeReg_advanceIP .flags _ 5⟩

/-- CMP with an illegal operand a. -/
theorem execCmp_halts_first {s : State} {tA vA : Word} {e : DecodeError} (tB vB : Word)
    (hA : s.resolve tA vA = .error e) :
    ∃ t, execCmp tA vA tB vB s = .next t ∧ HaltsAbnormally e.cause e.word s t :=
  ⟨_, execCmp_of_error_first tB vB hA, s.haltsAbnormally_abnormalHalt e⟩

/-- CMP with a legal operand a and an illegal operand b. -/
theorem execCmp_halts_second {s : State} {tA vA tB vB : Word} {e : DecodeError} (hA : operandOk tA vA = true)
    (hB : s.resolve tB vB = .error e) :
    ∃ t, execCmp tA vA tB vB s = .next t ∧ HaltsAbnormally e.cause e.word s t := by
  obtain ⟨p, hp⟩ := s.exists_resolve_of_operandOk hA
  exact ⟨_, execCmp_of_error_second hp hB, s.haltsAbnormally_abnormalHalt e⟩

/-- Settles O42: the effect where both operands resolve, and the abnormal halt of the first operand that does not. -/
theorem cmpWritesEqualityToFlags : Obligations.CmpWritesEqualityToFlags := by
  intro s tA vA tB vB
  simp only [exec_cmp]
  refine ⟨encode_cmp tA vA tB vB, fun p q hA hB => ?effect, fun htag => ?tagA, ?registerA, fun hA htag => ?tagB,
    ?registerB⟩
  case effect =>
    obtain ⟨t, ht, hflags, hpc, hframe⟩ := execCmp_effect hA hB
    exact ⟨t, ht, fun heq => hflags.trans (equalFlag_of_eq heq), fun hne => hflags.trans (equalFlag_of_ne hne),
      by rw [hpc]; exact BitVec.toNat_add .., hframe⟩
  case tagA => exact execCmp_halts_first tB vB (s.resolve_invalidTag vA htag)
  case registerA =>
    rintro rfl hreg
    exact execCmp_halts_first tB vB (s.resolve_invalidRegister hreg)
  case tagB => exact execCmp_halts_second hA (s.resolve_invalidTag vB htag)
  case registerB =>
    rintro hA rfl hreg
    exact execCmp_halts_second hA (s.resolve_invalidRegister hreg)

end Machine
end Sys2Proof
end

section
/-! PROOFS. The jumps (43_jumps.md R221 to R223): what setting IP leaves as it was, the two conditions on FLAGS, then the
branch by whether it is taken, which JE and JNE share. -/

namespace Sys2Proof.Machine

/-! ### IP set, by a jump or by the advance past an instruction -/

/-- A register file written with what it already holds is the same register file. -/
theorem RegFile.write_read_self (x : RegFile) (r : Reg) : x.write r (x.read r) = x := by
  cases r <;> rfl

/-- A jump to the instruction's own address is no change of state (R221). -/
theorem State.jumpTo_pc_self (s : State) : s.jumpTo s.pc = s :=
  congrArg (fun x => { s with regs := x }) (s.regs.write_read_self .ip)

/-- The frame of a jump (R26). -/
theorem State.changesOnly_jumpTo (s : State) (a : Word) : ChangesOnly [.ip] s (s.jumpTo a) := by
  refine ⟨fun q hq => ?_, fun b => by rw [State.jumpTo_mem], s.jumpTo_status a⟩
  exact s.readReg_jumpTo_other a (by simpa using hq)

/-- The frame of the advance of IP, which is a jump to the address after the instruction (R143). -/
theorem State.changesOnly_advanceIP (s : State) (n : Word) : ChangesOnly [.ip] s (s.advanceIP n) :=
  s.changesOnly_jumpTo (s.pc + n)

/-- The advance of IP as a sum of addresses modulo 65536 (R53). -/
theorem State.toNat_pc_advanceIP (s : State) (n : Word) :
    (s.advanceIP n).pc.toNat = (s.pc.toNat + n.toNat) % 65536 := by
  rw [State.pc_advanceIP]; exact BitVec.toNat_add ..

/-! ### The conditions: one value of all 16 bits of FLAGS each (R30) -/

theorem State.flagsSayEqual_iff {s : State} : s.flagsSayEqual = true ↔ s.readReg .flags = 1 := beq_iff_eq

theorem State.flagsSayNotEqual_iff {s : State} : s.flagsSayNotEqual = true ↔ s.readReg .flags = 0 := beq_iff_eq

/-! ### The branch of JE and JNE -/

theorem execBranch_taken {taken : Bool} (a : Word) (s : State) (h : taken = true) :
    execBranch taken a s = .next (s.jumpTo a) := by
  subst h; rfl

theorem execBranch_not_taken {taken : Bool} (a : Word) (s : State) (h : ¬ taken = true) :
    execBranch taken a s = .next (s.advanceIP 2) :=
  congrArg Host.Outcome.next (if_neg h)

/-- The effect of a branch on a condition that is the proposition `P`. -/
theorem execBranch_effect {taken : Bool} {P : Prop} (hP : taken = true ↔ P) (a : Word) (s : State) :
    ∃ t, execBranch taken a s = .next t ∧ (P → t.pc = a) ∧
      (¬ P → t.pc.toNat = (s.pc.toNat + 2) % 65536) ∧ ChangesOnly [.ip] s t := by
  by_cases h : P
  · exact ⟨s.jumpTo a, execBranch_taken a s (hP.2 h), fun _ => s.pc_jumpTo a, fun hn => absurd h hn,
      s.changesOnly_jumpTo a⟩
  · exact ⟨s.advanceIP 2, execBranch_not_taken a s (mt hP.1 h), fun hp => absurd hp h, fun _ => s.toNat_pc_advanceIP 2,
      s.changesOnly_advanceIP 2⟩

/-! ### The three instructions: encoding, and the operation each one is -/

theorem encode_jmp (a : Word) : encode (.jmp a) = [7, a] := rfl
theorem encode_je (a : Word) : encode (.je a) = [9, a] := rfl
theorem encode_jne (a : Word) : encode (.jne a) = [10, a] := rfl

theorem exec_jmp (a : Word) (s : State) : exec (.jmp a) s = .next (s.jumpTo a) := rfl
theorem exec_je (a : Word) (s : State) : exec (.je a) s = execBranch s.flagsSayEqual a s := rfl
theorem exec_jne (a : Word) (s : State) : exec (.jne a) s = execBranch s.flagsSayNotEqual a s := rfl

/-- A jump to its own address answers the state it started in (R221). -/
theorem exec_jmp_self (s : State) : exec (.jmp s.pc) s = .next s := by
  rw [exec_jmp, State.jumpTo_pc_self]

/-! ### The statements -/

/-- Settles O29: the state JMP answers is `s.jumpTo a`, which is `s` itself where IP holds the target already. -/
theorem jmpLoadsIP : Obligations.JmpLoadsIP := by
  intro s a
  refine ⟨encode_jmp a, ⟨s.jumpTo a, exec_jmp a s, s.pc_jumpTo a, s.changesOnly_jumpTo a⟩, ?self⟩
  case self =>
    rintro rfl
    exact exec_jmp_self s

/-- Settles O30: JE is the branch on FLAGS being 1. -/
theorem jeJumpsWhenFlagsIsOne : Obligations.JeJumpsWhenFlagsIsOne := by
  intro s a
  rw [exec_je]
  exact ⟨encode_je a, execBranch_effect State.flagsSayEqual_iff a s⟩

/-- Settles O31: JNE is the branch on FLAGS being 0. -/
theorem jneJumpsWhenFlagsIsZero : Obligations.JneJumpsWhenFlagsIsZero := by
  intro s a
  rw [exec_jne]
  exact ⟨encode_jne a, execBranch_effect State.flagsSayNotEqual_iff a s⟩

end Sys2Proof.Machine
end

section
/-! PROOFS. The exceptions (60_exceptions.md R240, R241): the step where the decoder reports an error, the state it
leaves, then what the decoder and the fetch port make of a word above 10. -/

namespace Sys2Proof.Machine

/-! ### The abnormal halt as a step -/

/-- A RUNNING core takes the abnormal halt of what the decoder reports at IP (R240). -/
theorem step_of_decodeAt_error {s : State} {e : DecodeError} (hrun : s.status = .running)
    (herr : s.mem.decodeAt s.pc = .error e) : step s = .next (s.abnormalHalt e) := by
  simp only [step, hrun, herr]

/-- A step to a next state is taken while RUNNING, which a core that has halted abnormally is not (R35, R250). -/
theorem step_abnormalHalt_ne_next (s : State) (e : DecodeError) (u : State) : step (s.abnormalHalt e) ≠ .next u := by
  intro hstep
  obtain ⟨hrun, -⟩ := step_cases hstep
  rw [State.abnormalHalt_status] at hrun
  cases hrun

/-- Settles O12: the state the step answers is `s.abnormalHalt e`, from which no step leads on. -/
theorem stepTakesTheAbnormalHalt : Obligations.StepTakesTheAbnormalHalt := fun s e hrun herr =>
  ⟨s.abnormalHalt e, step_of_decodeAt_error hrun herr, s.haltsAbnormally_abnormalHalt e,
    step_abnormalHalt_ne_next s e⟩

/-! ### A word above 10 at IP -/

/-- The opcode word of the instruction at an address is the word at that address. -/
@[simp] theorem Memory.instrWord_zero (m : Memory) (a : Word) : m.instrWord a 0 = m.read a :=
  congrArg m.read (BitVec.add_zero a)

/-- The decoder reports a word above 10 as no opcode, whatever words follow it (R92, R95). -/
theorem Memory.decodeAt_unknownOpcode {m : Memory} {a : Word} (h : 10 < (m.read a).toNat) :
    m.decodeAt a = .error ⟨.unknownOpcode, m.read a⟩ := by
  rw [← m.instrWord_zero a] at h ⊢
  exact decode_eq_error.2 (.inl ⟨opcodeMap_eq_none.2 h, rfl⟩)

/-- A word above 10 has no length, so the fetch presents no address after its own (R38, R142). -/
theorem Memory.fetchAddrs_unknownOpcode {m : Memory} {a : Word} (h : 10 < (m.read a).toNat) : m.fetchAddrs a = [a] := by
  simp only [Memory.fetchAddrs, opcodeLength?_eq_none.2 h]

/-- Settles O13: the fetch ends with the opcode word, and the step is the abnormal halt of what the decoder reports of
it. -/
theorem unknownOpcodeHaltsWithoutOperandFetch : Obligations.UnknownOpcodeHaltsWithoutOperandFetch := fun s hrun hop =>
  ⟨Memory.fetchAddrs_unknownOpcode hop, _, step_of_decodeAt_error hrun (Memory.decodeAt_unknownOpcode hop),
    s.haltsAbnormally_abnormalHalt _⟩

end Sys2Proof.Machine
end

section
/-! PROOFS. Decoder and encoder (30_encoding.md R81 to R96): the opcode map reads exactly what the encoder writes, and
the operand check reports the first illegal word; the statements about the decoder are assembled from these two. -/

namespace Sys2Proof

/-! ### Register numbers -/

/-- A word names a register exactly when it is that register's number (R7). -/
theorem Reg.ofNumber?_eq_some {w : Word} {r : Reg} : Reg.ofNumber? w = some r ↔ w = r.number := by
  refine ⟨Reg.eq_number_of_ofNumber?, ?_⟩
  rintro rfl
  exact Reg.ofNumber?_number r

/-- The numbers of the registers are the words up to 6 (R7). -/
theorem Reg.exists_eq_number_iff {w : Word} : (∃ r : Reg, w = r.number) ↔ w.toNat ≤ 6 := by
  rw [← not_lt, ← Reg.ofNumber?_eq_none, ← Ne, Option.ne_none_iff_exists']
  simp only [Reg.ofNumber?_eq_some]

/-- Settles O3: the seven numbers are read off; that there are no others is the law of `Reg.ofNumber?`. -/
theorem registerNumbersAreZeroToSix : Obligations.RegisterNumbersAreZeroToSix :=
  ⟨⟨rfl, rfl, rfl, rfl, rfl, rfl, rfl⟩,
    fun _ => ⟨Reg.exists_eq_number_iff.symm, fun _ => Reg.ofNumber?_eq_some⟩⟩

/-! ### A word sequence that begins with given words -/

/-- The words of `ws` are the first ones of the sequence. -/
def BeginsWith (word : Nat → Word) (ws : List Word) : Prop := ∀ k (hk : k < ws.length), word k = ws[k]

@[simp] theorem beginsWith_nil (word : Nat → Word) : BeginsWith word [] := fun _ hk => absurd hk (Nat.not_lt_zero _)

@[simp] theorem beginsWith_cons {word : Nat → Word} {w : Word} {ws : List Word} :
    BeginsWith word (w :: ws) ↔ word 0 = w ∧ BeginsWith (fun k => word (k + 1)) ws :=
  Nat.forall_lt_succ_left'

/-- An instruction has the length that its opcode word fixes (R88). -/
theorem opcodeLength?_opcode (i : Instr) : opcodeLength? i.opcode = some (encode i).length := by
  cases i with
  | hlt => exact Laws.EncodeLength.hlt
  | movImm r v => exact Laws.EncodeLength.movImm r v
  | addImm r v => exact Laws.EncodeLength.addImm r v
  | subImm r v => exact Laws.EncodeLength.subImm r v
  | movReg d r => exact Laws.EncodeLength.movReg d r
  | addReg d r => exact Laws.EncodeLength.addReg d r
  | subReg d r => exact Laws.EncodeLength.subReg d r
  | jmp t => exact Laws.EncodeLength.jmp t
  | cmp tA vA tB vB => exact Laws.EncodeLength.cmp tA vA tB vB
  | je t => exact Laws.EncodeLength.je t
  | jne t => exact Laws.EncodeLength.jne t

/-! ### The opcode map is the encoder's inverse -/

/-- The words of an encoding are mapped back to the instruction, legal or not, whatever follows them. -/
theorem opcodeMap_of_beginsWith {word : Nat → Word} {i : Instr} (h : BeginsWith word (encode i)) :
    opcodeMap word = some i := by
  cases i <;> simp_all [encode, Instr.opcode, Instr.operandWords, opcodeMap]

/-- Whatever the opcode map answers, its encoding stands at the beginning: the opcode word is compared whole, and each
operand word is taken whole (R81, R87). -/
theorem beginsWith_of_opcodeMap {word : Nat → Word} {i : Instr} (h : opcodeMap word = some i) :
    BeginsWith word (encode i) := by
  unfold opcodeMap at h
  split at h
  all_goals cases h
  all_goals
    rename_i hop
    simp [encode, Instr.opcode, Instr.operandWords, BitVec.toNat_eq, hop]

/-- The opcode map reads exactly what the encoder writes. -/
theorem opcodeMap_eq_some {word : Nat → Word} {i : Instr} : opcodeMap word = some i ↔ BeginsWith word (encode i) :=
  ⟨beginsWith_of_opcodeMap, opcodeMap_of_beginsWith⟩

/-- The decoder answers an instruction exactly when its encoding stands at the beginning and its operand words are
legal (R95). -/
theorem decode_eq_ok_iff {word : Nat → Word} {i : Instr} :
    decode word = .ok i ↔ i.wellFormed = true ∧ BeginsWith word (encode i) := by
  rw [decode_eq_ok, opcodeMap_eq_some, Laws.check_iff_wellFormed, and_comm]

/-- Settles O4: the words of an encoding are mapped back, and the operand check passes for a well-formed instruction. -/
theorem decodeReadsBackEncode : Obligations.DecodeReadsBackEncode := fun _ _ hwf hwords =>
  decode_eq_ok_iff.2 ⟨hwf, hwords⟩

/-- Settles O5: the other direction of the same equivalence. -/
theorem decodedInstructionEncodesBack : Obligations.DecodedInstructionEncodesBack := fun _ _ hdecode =>
  decode_eq_ok_iff.1 hdecode

/-! ### What the decoder depends on -/

/-- The decoder depends on its words through the opcode map and word 0 alone. -/
theorem decode_congr {word word' : Nat → Word} (h0 : word 0 = word' 0) (hmap : opcodeMap word = opcodeMap word') :
    decode word = decode word' := by
  unfold decode
  rw [hmap, h0]

/-- Settles O9: where no instruction stands, word 0 alone is reported; where one stands, the words that its opcode's
length covers are its encoding, so that the other sequence begins with it too. -/
theorem decoderReadsOnlyItsOwnWords : Obligations.DecoderReadsOnlyItsOwnWords := by
  intro word word' h0 hown
  refine decode_congr h0 ?_
  cases hmap : opcodeMap word with
  | none => rw [eq_comm, opcodeMap_eq_none, ← h0]; exact opcodeMap_eq_none.1 hmap
  | some i =>
    have hwords : BeginsWith word (encode i) := opcodeMap_eq_some.1 hmap
    have hlength : opcodeLength? (word 0) = some (encode i).length := by
      rw [(beginsWith_cons.1 hwords).1, opcodeLength?_opcode]
    exact (opcodeMap_eq_some.2 fun k hk => (hown _ hlength k hk).symm.trans (hwords k hk)).symm

/-! ### The operand check -/

/-- One register-number word that is illegal is the one reported (R244). -/
theorem check_one_invalid {w : Word} (h : 6 < w.toNat) :
    (do let _ ← regOf w; return () : Except DecodeError Unit) = .error ⟨.invalidRegister, w⟩ := by
  rw [regOf_invalid h]; rfl

/-- The first register-number word is reported whatever the second is (R247). -/
theorem check_two_invalid_first {d : Word} (s : Word) (h : 6 < d.toNat) :
    (do let _ ← regOf d; let _ ← regOf s; return () : Except DecodeError Unit) = .error ⟨.invalidRegister, d⟩ := by
  rw [regOf_invalid h]; rfl

/-- After a legal first word the second one is reported (R247). -/
theorem check_two_invalid_second {d s : Word} (hd : d.toNat ≤ 6) (h : 6 < s.toNat) :
    (do let _ ← regOf d; let _ ← regOf s; return () : Except DecodeError Unit) = .error ⟨.invalidRegister, s⟩ := by
  obtain ⟨r, rfl⟩ := Reg.exists_eq_number_iff.2 hd
  rw [regOf_number, regOf_invalid h]; rfl

/-- Operand a of CMP is reported whatever operand b is (R247). -/
theorem operandCheck_cmp_of_error_first {tA vA : Word} {e : DecodeError} (tB vB : Word)
    (hA : operandOf tA vA = .error e) : operandCheck (.cmp tA vA tB vB) = .error e := by
  simp only [operandCheck, hA]; rfl

/-- After a legal operand a of CMP, operand b is reported (R247). -/
theorem operandCheck_cmp_of_error_second {tA vA tB vB : Word} {e : DecodeError} (hA : operandOk tA vA = true)
    (hB : operandOf tB vB = .error e) : operandCheck (.cmp tA vA tB vB) = .error e := by
  obtain ⟨o, ho⟩ := operandOk_iff.1 hA
  simp only [operandCheck, ho, hB]; rfl

/-- A check that never reports an opcode word. -/
def ReportsNoOpcode {α : Type} (x : Except DecodeError α) : Prop := ∀ e, x = .error e → e.cause ≠ .unknownOpcode

theorem reportsNoOpcode_ok {α : Type} (a : α) : ReportsNoOpcode (.ok a) := fun _ h => by cases h

/-- Checks one after the other report no opcode word if none of them does. -/
theorem ReportsNoOpcode.bind {α β : Type} {x : Except DecodeError α} {f : α → Except DecodeError β}
    (hx : ReportsNoOpcode x) (hf : ∀ a, ReportsNoOpcode (f a)) : ReportsNoOpcode (x >>= f) := by
  cases x with
  | ok a => exact hf a
  | error e =>
    intro e' he
    cases he
    exact hx e rfl

theorem reportsNoOpcode_regOf (w : Word) : ReportsNoOpcode (regOf w) := by
  intro e he
  obtain ⟨r, -, hr⟩ | ⟨-, hr⟩ := regOf_cases w <;> cases hr.symm.trans he
  exact Cause.noConfusion

theorem reportsNoOpcode_operandOf (t v : Word) : ReportsNoOpcode (operandOf t v) := by
  intro e he
  obtain ⟨r, -, -, h⟩ | ⟨-, h⟩ | ⟨-, -, h⟩ | ⟨-, h⟩ := operandOf_cases t v <;> cases h.symm.trans he
  all_goals exact Cause.noConfusion

/-- The operand check reports a register number or a tag, never an opcode word (R244, R245). -/
theorem reportsNoOpcode_operandCheck (i : Instr) : ReportsNoOpcode (operandCheck i) := by
  have one (r : Word) : ReportsNoOpcode (do let _ ← regOf r; return ()) :=
    (reportsNoOpcode_regOf r).bind fun _ => reportsNoOpcode_ok ()
  have two (d r : Word) : ReportsNoOpcode (do let _ ← regOf d; let _ ← regOf r; return ()) :=
    (reportsNoOpcode_regOf d).bind fun _ => one r
  cases i with
  | hlt | jmp | je | jne => exact reportsNoOpcode_ok ()
  | movImm r | addImm r | subImm r => exact one r
  | movReg d r | addReg d r | subReg d r => exact two d r
  | cmp tA vA tB vB =>
    exact (reportsNoOpcode_operandOf tA vA).bind fun _ =>
      (reportsNoOpcode_operandOf tB vB).bind fun _ => reportsNoOpcode_ok ()

/-- Settles O6: the opcode map alone reports UnknownOpcode, and it does so for the words above 10. -/
theorem unknownOpcodeIsExactlyAboveTen : Obligations.UnknownOpcodeIsExactlyAboveTen := by
  intro word w
  rw [decode_eq_error]
  constructor
  · rintro (⟨hnone, heq⟩ | ⟨i, -, hcheck⟩)
    · cases heq
      exact ⟨opcodeMap_eq_none.1 hnone, rfl⟩
    · exact absurd rfl (reportsNoOpcode_operandCheck i _ hcheck)
  · rintro ⟨habove, rfl⟩
    exact .inl ⟨opcodeMap_eq_none.2 habove, rfl⟩

/-! ### The first illegal operand word -/

/-- Where the opcode map has an instruction the decoder reports what the operand check does (R95). -/
theorem decode_of_operandCheck_error {word : Nat → Word} {i : Instr} {e : DecodeError} (hmap : opcodeMap word = some i)
    (hcheck : operandCheck i = .error e) : decode word = .error e :=
  decode_eq_error.2 (.inr ⟨i, hmap, hcheck⟩)

theorem opcodeMap_of_eq_eight {word : Nat → Word} (h : (word 0).toNat = 8) :
    opcodeMap word = some (.cmp (word 1) (word 2) (word 3) (word 4)) := by
  simp [opcodeMap, h]

/-- Opcodes 1 to 3 have format RI, whose one check is of word 1 (R84). -/
theorem exists_opcodeMap_regImm {word : Nat → Word} (hlo : 1 ≤ (word 0).toNat) (hhi : (word 0).toNat ≤ 3) :
    ∃ i, opcodeMap word = some i ∧ operandCheck i = (do let _ ← regOf (word 1); return ()) := by
  obtain hop | hop | hop : (word 0).toNat = 1 ∨ (word 0).toNat = 2 ∨ (word 0).toNat = 3 := by omega
  all_goals simp only [opcodeMap, hop]; exact ⟨_, rfl, rfl⟩

/-- Opcodes 4 to 6 have format RR, whose checks are of word 1 and then of word 2 (R85). -/
theorem exists_opcodeMap_regReg {word : Nat → Word} (hlo : 4 ≤ (word 0).toNat) (hhi : (word 0).toNat ≤ 6) :
    ∃ i, opcodeMap word = some i ∧
      operandCheck i = (do let _ ← regOf (word 1); let _ ← regOf (word 2); return ()) := by
  obtain hop | hop | hop : (word 0).toNat = 4 ∨ (word 0).toNat = 5 ∨ (word 0).toNat = 6 := by omega
  all_goals simp only [opcodeMap, hop]; exact ⟨_, rfl, rfl⟩

/-- Both formats check their first register number first (R247). -/
theorem decode_invalid_first {word : Nat → Word} (hlo : 1 ≤ (word 0).toNat) (hhi : (word 0).toNat ≤ 6)
    (h : 6 < (word 1).toNat) : decode word = .error ⟨.invalidRegister, word 1⟩ := by
  obtain hle | hgt := le_or_gt (word 0).toNat 3
  · obtain ⟨i, hmap, hcheck⟩ := exists_opcodeMap_regImm hlo hle
    exact decode_of_operandCheck_error hmap (hcheck.trans (check_one_invalid h))
  · obtain ⟨i, hmap, hcheck⟩ := exists_opcodeMap_regReg hgt hhi
    exact decode_of_operandCheck_error hmap (hcheck.trans (check_two_invalid_first _ h))

/-- Format RR checks its second register number after a legal first (R247). -/
theorem decode_invalid_second {word : Nat → Word} (hlo : 4 ≤ (word 0).toNat) (hhi : (word 0).toNat ≤ 6)
    (hfirst : (word 1).toNat ≤ 6) (h : 6 < (word 2).toNat) : decode word = .error ⟨.invalidRegister, word 2⟩ := by
  obtain ⟨i, hmap, hcheck⟩ := exists_opcodeMap_regReg hlo hhi
  exact decode_of_operandCheck_error hmap (hcheck.trans (check_two_invalid_second hfirst h))

/-- Settles O8: formats RI and RR by their register numbers, format C by the operand that does not read as one. -/
theorem firstIllegalOperandWordIsReported : Obligations.FirstIllegalOperandWordIsReported := by
  intro word
  have first {e : DecodeError} (hop : (word 0).toNat = 8) (hA : operandOf (word 1) (word 2) = .error e) :
      decode word = .error e :=
    decode_of_operandCheck_error (opcodeMap_of_eq_eight hop) (operandCheck_cmp_of_error_first _ _ hA)
  have second {e : DecodeError} (hop : (word 0).toNat = 8) (hA : operandOk (word 1) (word 2) = true)
      (hB : operandOf (word 3) (word 4) = .error e) : decode word = .error e :=
    decode_of_operandCheck_error (opcodeMap_of_eq_eight hop) (operandCheck_cmp_of_error_second hA hB)
  have register {t v : Word} (ht : t.toNat = 0) (hv : 6 < v.toNat) : operandOf t v = .error ⟨.invalidRegister, v⟩ := by
    rw [show t = 0 from BitVec.eq_of_toNat_eq ht]
    exact operandOf_invalidRegister hv
  exact ⟨decode_invalid_first, decode_invalid_second, fun hop htag => first hop (operandOf_invalidTag _ htag),
    fun hop htag hreg => first hop (register htag hreg), fun hop hA htag => second hop hA (operandOf_invalidTag _ htag),
    fun hop hA htag hreg => second hop hA (register htag hreg)⟩

/-- Settles O10: seven fixed word lists, each run through the decoder. -/
theorem writtenOutWordsDecode : Obligations.WrittenOutWordsDecode :=
  ⟨rfl, rfl, rfl, rfl, rfl, rfl, rfl⟩

end Sys2Proof
end

section
/-! PROOFS. What an instruction can do, said once (`InstrEffect`), and what follows from it about every instruction: its
frame, its status, the registers its result depends on, and where it leaves IP (10_state.md R26, R145, R144). -/

namespace Sys2Proof.Machine

/-! ### The effects -/

/-- The instruction goes to `a`: JMP always, JE and JNE on their one value of FLAGS (R221 to R223). -/
def JumpsTo (i : Instr) (s : State) (a : Word) : Prop :=
  i = .jmp a ∨ (i = .je a ∧ s.readReg .flags = 1) ∨ (i = .jne a ∧ s.readReg .flags = 0)

/-- What instruction `i` makes of state `s`. -/
inductive InstrEffect (i : Instr) (s : State) : State → Prop where
  /-- HLT ends the run. -/
  | halt (hi : i = .hlt) : InstrEffect i s s.halt
  /-- An illegal operand word ends it abnormally. -/
  | abnormal (e : DecodeError) (hcheck : operandCheck i = .error e) : InstrEffect i s (s.abnormalHalt e)
  /-- MOV, ADD and SUB write their destination and move IP past their three words. -/
  | write (d : Reg) (v : Word) (hdest : destination? i = some d) : InstrEffect i s ((s.writeReg d v).advanceIP 3)
  /-- CMP writes FLAGS and moves IP past its five words. -/
  | compare (p q : Word) (hi : ∃ tA vA tB vB, i = .cmp tA vA tB vB) :
    InstrEffect i s ((s.writeReg .flags (equalFlag p q)).advanceIP 5)
  /-- A jump that is taken loads IP. -/
  | jump (a : Word) (hjump : JumpsTo i s a) : InstrEffect i s (s.jumpTo a)
  /-- JE or JNE not taken moves IP past its two words. -/
  | skip (a : Word) (hi : i = .je a ∨ i = .jne a) : InstrEffect i s (s.advanceIP 2)

/-- Format RI, for an instruction whose check and destination are those of its first word. -/
theorem instrEffect_of_execRegImm {op : Word → Word → Word} {i : Instr} {r v : Word} {s t : State}
    (hcheck : operandCheck i = (do let _ ← regOf r; return ())) (hdest : destination? i = Reg.ofNumber? r)
    (h : execRegImm op r v s = .next t) : InstrEffect i s t := by
  obtain ⟨d, rfl, -⟩ | ⟨hr, -⟩ := regOf_cases r
  · rw [execRegImm_number] at h
    cases h
    exact .write d _ (by rw [hdest, Reg.ofNumber?_number])
  · rw [execRegImm_invalid op v s hr] at h
    cases h
    exact .abnormal _ (hcheck.trans (check_one_invalid hr))

/-- Format RR, for an instruction whose checks are those of its two words and whose destination is the first. -/
theorem instrEffect_of_execRegReg {op : Word → Word → Word} {i : Instr} {r1 r2 : Word} {s t : State}
    (hcheck : operandCheck i = (do let _ ← regOf r1; let _ ← regOf r2; return ()))
    (hdest : destination? i = Reg.ofNumber? r1) (h : execRegReg op r1 r2 s = .next t) : InstrEffect i s t := by
  obtain ⟨d, rfl, -⟩ | ⟨h1, -⟩ := regOf_cases r1
  · obtain ⟨r, rfl, -⟩ | ⟨h2, -⟩ := regOf_cases r2
    · rw [execRegReg_number] at h
      cases h
      exact .write d _ (by rw [hdest, Reg.ofNumber?_number])
    · rw [execRegReg_invalid_second op d s h2] at h
      cases h
      exact .abnormal _ (hcheck.trans (check_two_invalid_second (Reg.exists_eq_number_iff.1 ⟨d, rfl⟩) h2))
  · rw [execRegReg_invalid_first op r2 s h1] at h
    cases h
    exact .abnormal _ (hcheck.trans (check_two_invalid_first r2 h1))

/-- CMP, by whether its operands read as operands. -/
theorem instrEffect_of_execCmp {tA vA tB vB : Word} {s t : State} (h : execCmp tA vA tB vB s = .next t) :
    InstrEffect (.cmp tA vA tB vB) s t := by
  cases hA : operandOf tA vA with
  | error e =>
    rw [execCmp_of_error_first tB vB (State.resolve_of_error hA)] at h
    cases h
    exact .abnormal e (operandCheck_cmp_of_error_first tB vB hA)
  | ok a =>
    cases hB : operandOf tB vB with
    | error e =>
      rw [execCmp_of_error_second (State.resolve_of_operandOf hA) (State.resolve_of_error hB)] at h
      cases h
      exact .abnormal e (operandCheck_cmp_of_error_second (operandOk_iff.2 ⟨a, hA⟩) hB)
    | ok b =>
      rw [execCmp_of_resolve (State.resolve_of_operandOf hA) (State.resolve_of_operandOf hB)] at h
      cases h
      exact .compare _ _ ⟨tA, vA, tB, vB, rfl⟩

/-- A branch on a condition that is the proposition `P`. -/
theorem instrEffect_of_execBranch {taken : Bool} {P : Prop} (hP : taken = true ↔ P) {i : Instr} {a : Word} {s t : State}
    (hjump : P → JumpsTo i s a) (hi : i = .je a ∨ i = .jne a) (h : execBranch taken a s = .next t) :
    InstrEffect i s t := by
  by_cases hp : P
  · rw [execBranch_taken a s (hP.2 hp)] at h
    cases h
    exact .jump a (hjump hp)
  · rw [execBranch_not_taken a s (mt hP.1 hp)] at h
    cases h
    exact .skip a hi

/-- Everything `exec` can answer as a next state. -/
theorem exec_effect {i : Instr} {s t : State} (h : exec i s = .next t) : InstrEffect i s t := by
  cases i with
  | hlt => cases h; exact .halt rfl
  | movImm r v | addImm r v | subImm r v => exact instrEffect_of_execRegImm rfl rfl h
  | movReg d r | addReg d r | subReg d r => exact instrEffect_of_execRegReg rfl rfl h
  | cmp tA vA tB vB => exact instrEffect_of_execCmp h
  | jmp a => cases h; exact .jump a (.inl rfl)
  | je a => exact instrEffect_of_execBranch State.flagsSayEqual_iff (fun hf => .inr (.inl ⟨rfl, hf⟩)) (.inl rfl) h
  | jne a => exact instrEffect_of_execBranch State.flagsSayNotEqual_iff (fun hf => .inr (.inr ⟨rfl, hf⟩)) (.inr rfl) h

/-- Every instruction answers a next state, whatever its operand words (R150). -/
theorem exec_isNext (i : Instr) (s : State) : ∃ t, exec i s = .next t := by
  cases i with
  | hlt | jmp | je | jne => exact ⟨_, rfl⟩
  | movImm | addImm | subImm | movReg | addReg | subReg | cmp => exact s.finish_isNext _

/-! ### The frame -/

/-- No instruction stores anything (R23, R58). -/
theorem InstrEffect.mem_eq {i : Instr} {s t : State} (h : InstrEffect i s t) : t.mem = s.mem := by
  cases h <;> simp

/-- An instruction that names a destination writes it and IP (R26). -/
theorem writtenRegs_of_destination {i : Instr} {d : Reg} (h : destination? i = some d) : writtenRegs i = [d, .ip] := by
  cases i with
  | hlt | jmp | cmp | je | jne => cases h
  | movImm | addImm | subImm | movReg | addReg | subReg => simp [writtenRegs, h]

theorem JumpsTo.writtenRegs_eq {i : Instr} {s : State} {a : Word} (h : JumpsTo i s a) : writtenRegs i = [.ip] := by
  obtain rfl | ⟨rfl, -⟩ | ⟨rfl, -⟩ := h <;> rfl

/-- Only the registers of the column "writes" change (R26). -/
theorem InstrEffect.sameRegsExcept {i : Instr} {s t : State} (h : InstrEffect i s t) :
    SameRegsExcept (writtenRegs i) s t := by
  cases h with
  | halt => exact fun r _ => s.readReg_halt r
  | abnormal e => exact fun r _ => s.readReg_abnormalHalt e r
  | write d v hdest =>
    rw [writtenRegs_of_destination hdest]
    exact (s.changesOnly_writeReg_advanceIP d v 3).1
  | compare p q hi =>
    obtain ⟨tA, vA, tB, vB, rfl⟩ := hi
    exact (s.changesOnly_writeReg_advanceIP .flags _ 5).1
  | jump a hjump =>
    rw [hjump.writtenRegs_eq]
    exact (s.changesOnly_jumpTo a).1
  | skip a hi =>
    obtain rfl | rfl := hi
    all_goals exact (s.changesOnly_advanceIP 2).1

/-- Settles O19: the frame of each effect, memory included. -/
theorem instructionWritesOnlyItsListedRegisters : Obligations.InstructionWritesOnlyItsListedRegisters := by
  intro i s t h
  have heffect := exec_effect h
  exact ⟨heffect.sameRegsExcept, fun a => by rw [heffect.mem_eq]⟩

/-- The registers that are written: IP, the named destination, and FLAGS by CMP. -/
theorem writtenRegs_cases {i : Instr} {r : Reg} (h : r ∈ writtenRegs i) :
    r = .ip ∨ destination? i = some r ∨ (r = .flags ∧ ∃ tA vA tB vB, i = .cmp tA vA tB vB) := by
  cases i with
  | hlt => cases h
  | jmp | je | jne => exact .inl (List.mem_singleton.1 h)
  | movImm | addImm | subImm | movReg | addReg | subReg =>
    obtain hdest | hip := List.mem_append.1 h
    · exact .inr (.inl (Option.mem_toList.1 hdest))
    · exact .inl (List.mem_singleton.1 hip)
  | cmp tA vA tB vB =>
    obtain hflags | hip : r = .flags ∨ r = .ip := by simpa [writtenRegs] using h
    · exact .inr (.inr ⟨hflags, tA, vA, tB, vB, rfl⟩)
    · exact .inl hip

/-! ### The status -/

/-- A well-formed instruction leaves the status as it is, unless it is HLT (R146, R145). -/
theorem InstrEffect.status_eq {i : Instr} {s t : State} (h : InstrEffect i s t) (hwf : i.wellFormed = true) :
    (i = .hlt ∧ t = s.halt) ∨ t.status = s.status := by
  cases h with
  | halt hi => exact .inl ⟨hi, rfl⟩
  | abnormal e hcheck => rw [(Laws.check_iff_wellFormed i).2 hwf] at hcheck; cases hcheck
  | write | compare | jump | skip => exact .inr (by simp)

/-! ### IP -/

/-- MOV, ADD and SUB are three words long (R84, R85). -/
theorem length_encode_of_destination {i : Instr} {d : Reg} (h : destination? i = some d) : (encode i).length = 3 := by
  cases i with
  | hlt | jmp | cmp | je | jne => cases h
  | movImm | addImm | subImm | movReg | addReg | subReg => rfl

/-- Settles O24: of the effects the hypotheses leave the three that add the instruction's length to IP. -/
theorem sequentialInstructionsAdvancePastTheirWords : Obligations.SequentialInstructionsAdvancePastTheirWords := by
  intro i s hwf hhlt hjmp hje hjne hip
  obtain ⟨t, ht⟩ := exec_isNext i s
  refine ⟨t, ht, ?_⟩
  cases exec_effect ht with
  | halt hi => exact absurd hi hhlt
  | abnormal e hcheck => rw [(Laws.check_iff_wellFormed i).2 hwf] at hcheck; cases hcheck
  | write d v hdest =>
    have hd : d ≠ .ip := by rintro rfl; exact hip hdest
    rw [length_encode_of_destination hdest]
    exact s.toNat_pc_writeReg_advanceIP v hd
  | compare p q hi =>
    obtain ⟨tA, vA, tB, vB, rfl⟩ := hi
    rw [s.pc_writeReg_flags_advanceIP _ 5]
    exact BitVec.toNat_add ..
  | jump a hjump =>
    obtain hi | ⟨hi, hflags⟩ | ⟨hi, hflags⟩ := hjump
    · exact absurd hi (hjmp a)
    · exact absurd hflags (hje a hi)
    · exact absurd hflags (hjne a hi)
  | skip a hi =>
    have hlength : (encode i).length = 2 := by obtain rfl | rfl := hi <;> rfl
    rw [hlength]
    exact s.toNat_pc_advanceIP 2

/-! ### What the result depends on -/

/-- Two states agree on the registers listed. -/
abbrev AgreeOn (rs : List Reg) (s s' : State) : Prop := ∀ r ∈ rs, s.readReg r = s'.readReg r

/-- The result of an instruction that reads alike: the registers written, and the status where it was equal. -/
def LeadAlike (rs : List Reg) (s s' t t' : State) : Prop :=
  AgreeOn rs t t' ∧ (s.status = s'.status → t.status = t'.status)

/-- What holds of the named destination and IP holds of all the registers written. -/
theorem LeadAlike.of_destination {i : Instr} {d : Reg} {s s' t t' : State} (hdest : destination? i = some d)
    (h : LeadAlike [d, .ip] s s' t t') : LeadAlike (writtenRegs i) s s' t t' := by
  rwa [writtenRegs_of_destination hdest]

/-- The same word written and IP advanced from the same address lead alike. -/
theorem leadAlike_writeReg_advanceIP {s s' : State} {d : Reg} {v v' n : Word} (hv : v = v') (hip : s.pc = s'.pc) :
    LeadAlike [d, .ip] s s' ((s.writeReg d v).advanceIP n) ((s'.writeReg d v').advanceIP n) := by
  subst hv
  refine ⟨fun r hr => ?_, fun h => by simpa using h⟩
  have hpc : (s.writeReg d v).pc = (s'.writeReg d v).pc := by
    simp only [← State.readReg_ip, State.readReg_writeReg] at hip ⊢
    rw [hip]
  obtain rfl | rfl : r = d ∨ r = .ip := by simpa using hr
  all_goals simp [State.readReg_advanceIP, hpc]

theorem leadAlike_jumpTo {s s' : State} {a a' : Word} (ha : a = a') :
    LeadAlike [.ip] s s' (s.jumpTo a) (s'.jumpTo a') := by
  subst ha
  exact ⟨fun r hr => by simp [State.readReg_jumpTo, List.mem_singleton.1 hr], fun h => by simpa using h⟩

theorem leadAlike_execRegImm {op : Word → Word → Word} {d : Reg} {v : Word} {s s' t t' : State}
    (hop : op (s.readReg d) v = op (s'.readReg d) v) (hip : s.pc = s'.pc) (ht : execRegImm op d.number v s = .next t)
    (ht' : execRegImm op d.number v s' = .next t') : LeadAlike [d, .ip] s s' t t' := by
  rw [execRegImm_number] at ht ht'
  cases ht
  cases ht'
  exact leadAlike_writeReg_advanceIP hop hip

theorem leadAlike_execRegReg {op : Word → Word → Word} {d r : Reg} {s s' t t' : State}
    (hop : op (s.readReg d) (s.readReg r) = op (s'.readReg d) (s'.readReg r)) (hip : s.pc = s'.pc)
    (ht : execRegReg op d.number r.number s = .next t) (ht' : execRegReg op d.number r.number s' = .next t') :
    LeadAlike [d, .ip] s s' t t' := by
  rw [execRegReg_number] at ht ht'
  cases ht
  cases ht'
  exact leadAlike_writeReg_advanceIP hop hip

theorem leadAlike_execBranch {taken taken' : Bool} {a : Word} {s s' t t' : State} (htaken : taken = taken')
    (hip : s.pc = s'.pc) (ht : execBranch taken a s = .next t) (ht' : execBranch taken' a s' = .next t') :
    LeadAlike [.ip] s s' t t' := by
  subst htaken
  cases ht
  cases ht'
  cases taken with
  | true => exact leadAlike_jumpTo rfl
  | false => exact leadAlike_jumpTo (by rw [hip])

/-- The value of an operand is that of the register it names, or no register's (R200). -/
theorem operandValue_congr {tg v : Word} {o : Operand} {s s' : State} (ho : operandOf tg v = .ok o)
    (h : AgreeOn (operandRegs tg v) s s') : s.operandValue o = s'.operandValue o := by
  cases o with
  | imm w => rfl
  | reg r => exact h r (by simp [operandRegs, ho])

/-- The one register-number word of a well-formed instruction of format RI. -/
theorem exists_number_of_regIdOk {w : Word} (h : regIdOk w = true) : ∃ r : Reg, w = r.number := by
  obtain ⟨r, hr⟩ := regIdOk_iff.1 h
  exact ⟨r, Reg.eq_number_of_ofNumber? hr⟩

theorem exists_numbers_of_regIdOk {w w' : Word} (h : (regIdOk w && regIdOk w') = true) :
    ∃ r r' : Reg, w = r.number ∧ w' = r'.number := by
  obtain ⟨hw, hw'⟩ := (Bool.and_eq_true ..).mp h
  obtain ⟨r, hr⟩ := exists_number_of_regIdOk hw
  obtain ⟨r', hr'⟩ := exists_number_of_regIdOk hw'
  exact ⟨r, r', hr, hr'⟩

/-- Settles O20: by format, what is written is a function of the registers read, and IP is one of them. -/
theorem instructionReadsOnlyItsListedRegisters : Obligations.InstructionReadsOnlyItsListedRegisters := by
  intro i s s' t t' hwf hread ht ht'
  change LeadAlike (writtenRegs i) s s' t t'
  have hip : s.pc = s'.pc := hread .ip (by cases i <;> simp [readRegs])
  cases i with
  | hlt => cases ht; cases ht'; exact ⟨fun r hr => (List.not_mem_nil hr).elim, fun _ => rfl⟩
  | movImm r v =>
    obtain ⟨d, rfl⟩ := exists_number_of_regIdOk hwf
    exact .of_destination (Reg.ofNumber?_number d) (leadAlike_execRegImm (op := aluPass) rfl hip ht ht')
  | addImm r v | subImm r v =>
    obtain ⟨d, rfl⟩ := exists_number_of_regIdOk hwf
    have hd : s.readReg d = s'.readReg d := hread d (by simp [readRegs, destination?])
    exact .of_destination (Reg.ofNumber?_number d) (leadAlike_execRegImm (by rw [hd]) hip ht ht')
  | movReg d r =>
    obtain ⟨d, r, rfl, rfl⟩ := exists_numbers_of_regIdOk hwf
    have hr : s.readReg r = s'.readReg r := hread r (by simp [readRegs])
    exact .of_destination (Reg.ofNumber?_number d) (leadAlike_execRegReg (op := aluPass) hr hip ht ht')
  | addReg d r | subReg d r =>
    obtain ⟨d, r, rfl, rfl⟩ := exists_numbers_of_regIdOk hwf
    have hd : s.readReg d = s'.readReg d := hread d (by simp [readRegs, destination?])
    have hr : s.readReg r = s'.readReg r := hread r (by simp [readRegs])
    exact .of_destination (Reg.ofNumber?_number d) (leadAlike_execRegReg (by rw [hd, hr]) hip ht ht')
  | jmp a => cases ht; cases ht'; exact leadAlike_jumpTo rfl
  | cmp tA vA tB vB =>
    obtain ⟨hA, hB⟩ := (Bool.and_eq_true ..).mp hwf
    obtain ⟨a, ha⟩ := operandOk_iff.1 hA
    obtain ⟨b, hb⟩ := operandOk_iff.1 hB
    rw [exec_cmp, execCmp_of_resolve (State.resolve_of_operandOf ha) (State.resolve_of_operandOf hb)] at ht ht'
    cases ht
    cases ht'
    have hva : s.operandValue a = s'.operandValue a :=
      operandValue_congr ha fun r hr => hread r (by simp [readRegs, hr])
    have hvb : s.operandValue b = s'.operandValue b :=
      operandValue_congr hb fun r hr => hread r (by simp [readRegs, hr])
    exact leadAlike_writeReg_advanceIP (by rw [hva, hvb]) hip
  | je a | jne a =>
    have hflags : s.readReg .flags = s'.readReg .flags := hread .flags (by simp [readRegs])
    exact leadAlike_execBranch (by simp only [State.flagsSayEqual, State.flagsSayNotEqual, hflags]) hip ht ht'

end Sys2Proof.Machine
end

section
/-! PROOFS. The particular results of instructions that their own rules do not state: IP as a destination (R178),
subtraction as addition (R177), the operands of CMP (R200, R203) and JE beside JNE (R31). -/

namespace Sys2Proof.Machine

/-! ### IP as the destination -/

theorem execRegImm_ip (op : Word → Word → Word) (i : Word) (s : State) :
    ∃ t, execRegImm op 5 i s = .next t ∧ t.pc = op s.pc i + 3 := by
  obtain ⟨t, ht, hvalue, -⟩ := execRegImm_effect op .ip i s
  exact ⟨t, ht, hvalue⟩

theorem execRegReg_ip (op : Word → Word → Word) (r : Reg) (s : State) :
    ∃ t, execRegReg op 5 r.number s = .next t ∧ t.pc = op s.pc (s.readReg r) + 3 := by
  obtain ⟨t, ht, hvalue, -⟩ := execRegReg_effect op .ip r s
  exact ⟨t, ht, hvalue⟩

/-- Settles O39: the two formats with IP as the destination, over the three ALU operations; in `SUB IP, IP` the
difference is 0. -/
theorem ipAsDestinationEndsThreePastTheWrittenValue : Obligations.IPAsDestinationEndsThreePastTheWrittenValue := by
  intro s i r
  refine ⟨execRegImm_ip aluPass i s, execRegImm_ip aluAdd i s, execRegImm_ip aluSub i s, execRegReg_ip aluPass r s,
    execRegReg_ip aluAdd r s, execRegReg_ip aluSub r s, ?_⟩
  obtain ⟨t, ht, hpc⟩ := execRegReg_ip aluSub .ip s
  exact ⟨t, ht, by simpa [aluSub, State.readReg_ip] using hpc⟩

/-! ### Subtraction as addition of the complement -/

/-- The complement of a word is its negative. -/
theorem eq_neg_of_toNat_complement {i j : Word} (h : j.toNat = (65536 - i.toNat) % 65536) : j = -i :=
  BitVec.eq_of_toNat_eq (by rw [BitVec.toNat_neg]; exact h)

theorem aluSub_eq_aluAdd_neg (x i : Word) : aluSub x i = aluAdd x (-i) := BitVec.sub_eq_add_neg x i

/-- Settles O40: both are format RI, and the words they write are equal; where the register number is illegal, neither
writes one. -/
theorem subImmediateIsAddOfTheComplement : Obligations.SubImmediateIsAddOfTheComplement := by
  intro s r i j hj
  rw [exec_subImm, exec_addImm, eq_neg_of_toNat_complement hj]
  obtain ⟨d, rfl, -⟩ | ⟨hr, -⟩ := regOf_cases r
  · rw [execRegImm_number, execRegImm_number, aluSub_eq_aluAdd_neg]
  · rw [execRegImm_invalid _ _ _ hr, execRegImm_invalid _ _ _ hr]

/-! ### The operands of CMP -/

theorem State.resolve_register (s : State) (r : Reg) : s.resolve 0 r.number = .ok (s.readReg r) := by
  have hr : operandOf 0 r.number = .ok (.reg r) := by
    change (regOf r.number).map Operand.reg = _
    rw [regOf_number]; rfl
  exact State.resolve_of_operandOf hr

theorem State.resolve_immediate (s : State) (v : Word) : s.resolve 1 v = .ok v :=
  State.resolve_of_operandOf (o := .imm v) rfl

/-- Settles O41: one clause for each answer of the operand reader. -/
theorem resolveFollowsTheTag : Obligations.ResolveFollowsTheTag := fun s v =>
  ⟨s.resolve_register, s.resolve_immediate v, s.resolve_invalidRegister, fun _ htag => s.resolve_invalidTag v htag⟩

theorem equalFlag_eq_one_iff {p q : Word} : equalFlag p q = 1 ↔ p = q := by
  by_cases h : p = q
  · exact iff_of_true (equalFlag_of_eq h) h
  · exact iff_of_false (by rw [equalFlag_of_ne h]; decide) h

/-- CMP of two operands that resolve says whether they are equal. -/
theorem exec_cmp_flags {s : State} {tA vA tB vB p q : Word} (hA : s.resolve tA vA = .ok p)
    (hB : s.resolve tB vB = .ok q) :
    ∃ t, exec (.cmp tA vA tB vB) s = .next t ∧ (t.readReg .flags = 1 ↔ p = q) := by
  obtain ⟨t, ht, hflags, -⟩ := execCmp_effect hA hB
  exact ⟨t, ht, by rw [hflags, equalFlag_eq_one_iff]⟩

/-- Settles O43: registers and immediates resolve under their tags in either place. -/
theorem cmpTakesAllFourOperandKinds : Obligations.CmpTakesAllFourOperandKinds := fun s r q v w =>
  ⟨exec_cmp_flags (s.resolve_register r) (s.resolve_register q),
    exec_cmp_flags (s.resolve_register r) (s.resolve_immediate w),
    exec_cmp_flags (s.resolve_immediate v) (s.resolve_register q),
    exec_cmp_flags (s.resolve_immediate v) (s.resolve_immediate w)⟩

/-! ### JE and JNE to one target -/

/-- A branch to a target off the sequential path goes there exactly on its condition. -/
theorem execBranch_pc_eq_iff {taken : Bool} {P : Prop} (hP : taken = true ↔ P) {a : Word} {s : State}
    (ha : a ≠ s.pc + 2) : ∃ t, execBranch taken a s = .next t ∧ (t.pc = a ↔ P) := by
  by_cases h : P
  · exact ⟨_, execBranch_taken a s (hP.2 h), iff_of_true (s.pc_jumpTo a) h⟩
  · refine ⟨_, execBranch_not_taken a s (mt hP.1 h), iff_of_false ?_ h⟩
    rw [State.pc_advanceIP]
    exact ha.symm

/-- Settles O32: one goes to the target on 1 and the other on 0, which are the two values of FLAGS that are Boolean. -/
theorem branchesAreComplementsOnlyOnZeroAndOne : Obligations.BranchesAreComplementsOnlyOnZeroAndOne := by
  intro s a ha
  obtain ⟨t, ht, hje⟩ := execBranch_pc_eq_iff (State.flagsSayEqual_iff (s := s)) ha
  obtain ⟨u, hu, hjne⟩ := execBranch_pc_eq_iff (State.flagsSayNotEqual_iff (s := s)) ha
  refine ⟨t, u, ht, hu, fun hbool => ?_, fun hother => ?_⟩
  · rw [hje, Ne, hjne]
    obtain h0 | h1 := hbool
    · simp [h0]
    · simp [h1]
  · rw [Ne, hje, Ne, hjne, and_comm]
    exact not_or.1 hother

end Sys2Proof.Machine
end

section
/-! PROOFS. The step and the invariant (40_cycle_and_hlt.md R141, R145, R150, 60_exceptions.md R246), from the law of
the step and the effects of an instruction. -/

namespace Sys2Proof.Machine

/-! ### When a step is taken, and of what -/

/-- A RUNNING core runs the instruction that the decoder reads at IP (R141). -/
theorem step_of_decodeAt_ok {s : State} {i : Instr} (hrun : s.status = .running) (hok : s.mem.decodeAt s.pc = .ok i) :
    step s = exec i s := by
  simp only [step, hrun, hok]

/-- The encoding of a well-formed instruction decodes where it stands, addresses modulo 65536 (R53, R95). -/
theorem Memory.decodeAt_of_beginsWith {m : Memory} {a : Word} {i : Instr} (hwf : i.wellFormed = true)
    (h : BeginsWith (m.instrWord a) (encode i)) : m.decodeAt a = .ok i :=
  decode_eq_ok_iff.2 ⟨hwf, h⟩

/-- Settles O11: the second clause is the first, the decoder reading the encoding back. -/
theorem stepRunsTheDecodedInstruction : Obligations.StepRunsTheDecodedInstruction :=
  ⟨fun _ _ => step_of_decodeAt_ok, fun _ _ hrun hwf hwords =>
    step_of_decodeAt_ok hrun (Memory.decodeAt_of_beginsWith hwf hwords)⟩

/-- While RUNNING there is a next state: the abnormal halt, or the effect of the instruction (R150). -/
theorem exists_step_of_running {s : State} (hrun : s.status = .running) : ∃ t, step s = .next t := by
  cases hdecode : s.mem.decodeAt s.pc with
  | error e => exact ⟨_, step_of_decodeAt_error hrun hdecode⟩
  | ok i => rw [step_of_decodeAt_ok hrun hdecode]; exact exec_isNext i s

theorem step_deterministic {s t u : State} (ht : step s = .next t) (hu : step s = .next u) : u = t := by
  cases ht.symm.trans hu
  rfl

/-- Settles O14: the next state exists, and the step is a function. -/
theorem runningCoreAlwaysHasOneNextState : Obligations.RunningCoreAlwaysHasOneNextState := by
  intro s hrun
  obtain ⟨t, ht⟩ := exists_step_of_running hrun
  exact ⟨t, ht, fun u hu => step_deterministic ht hu⟩

/-- Settles O15: the status alone decides it. -/
theorem endedCoreHasNoStep : Obligations.EndedCoreHasNoStep := fun s =>
  ⟨fun hhalted => by simp only [step, hhalted], fun c info hfaulted => by simp only [step, hfaulted]⟩

/-! ### What a step leaves -/

/-- No step stores anything (R23, R58). -/
theorem step_mem_eq {s t : State} (h : step s = .next t) : t.mem = s.mem := by
  obtain ⟨-, ⟨e, -, rfl⟩ | ⟨i, -, -, hexec⟩⟩ := step_cases h
  · exact s.abnormalHalt_mem e
  · exact (exec_effect hexec).mem_eq

/-- What a step does to the status: the abnormal halt of what the decoder reports, HLT, or nothing (R145). -/
theorem step_status_cases {s t : State} (h : step s = .next t) :
    (∃ e, s.mem.decodeAt s.pc = .error e ∧ t = s.abnormalHalt e) ∨
      (s.mem.decodeAt s.pc = .ok .hlt ∧ t = s.halt) ∨ t.status = .running := by
  obtain ⟨hrun, herror | ⟨i, hi, hwf, hexec⟩⟩ := step_cases h
  · exact .inl herror
  · obtain ⟨rfl, ht⟩ | hstatus := (exec_effect hexec).status_eq hwf
    · exact .inr (.inl ⟨hi, ht⟩)
    · exact .inr (.inr (hstatus.trans hrun))

/-- A decoded instruction's step has the effect of that instruction. -/
theorem step_effect {s t : State} {i : Instr} (hi : s.mem.decodeAt s.pc = .ok i) (h : step s = .next t) :
    InstrEffect i s t := by
  obtain ⟨hrun, -⟩ := step_cases h
  rw [step_of_decodeAt_ok hrun hi] at h
  exact exec_effect h

/-- Settles O25: of what a step can do to the status only the abnormal halt sets FAULTED. -/
theorem abnormalHaltIsPrecise : Obligations.AbnormalHaltIsPrecise := by
  intro s t c info hstep hfaulted
  obtain ⟨e, he, rfl⟩ | ⟨-, rfl⟩ | hrunning := step_status_cases hstep
  · cases hfaulted
    exact ⟨s.haltsAbnormally_abnormalHalt e, rfl, he⟩
  · cases hfaulted
  · cases hrunning.symm.trans hfaulted

/-- Opcodes 0, 7, 9 and 10 have no operand word that could be illegal (R82, R83). -/
theorem decode_of_hlt_or_jump {word : Nat → Word} (h : word 0 = 0 ∨ word 0 = 7 ∨ word 0 = 9 ∨ word 0 = 10) :
    ∃ i, decode word = .ok i := by
  obtain h | h | h | h := h
  · exact ⟨.hlt, decode_eq_ok_iff.2 ⟨rfl, by simp [encode_hlt, h]⟩⟩
  · exact ⟨.jmp (word 1), decode_eq_ok_iff.2 ⟨rfl, by simp [encode_jmp, h]⟩⟩
  · exact ⟨.je (word 1), decode_eq_ok_iff.2 ⟨rfl, by simp [encode_je, h]⟩⟩
  · exact ⟨.jne (word 1), decode_eq_ok_iff.2 ⟨rfl, by simp [encode_jne, h]⟩⟩

/-- Settles O26: a FAULTED status would need a decode error, which these opcodes never are. -/
theorem haltAndJumpsAlwaysComplete : Obligations.HaltAndJumpsAlwaysComplete := by
  intro s hrun hop
  obtain ⟨t, ht⟩ := exists_step_of_running hrun
  refine ⟨t, ht, fun c info hfaulted => ?_⟩
  obtain ⟨-, -, herror⟩ := abnormalHaltIsPrecise s t c info ht hfaulted
  rw [← s.mem.instrWord_zero] at hop
  obtain ⟨i, hi⟩ := decode_of_hlt_or_jump hop
  cases hi.symm.trans herror

/-- Settles O21: the status part is the split of a step's effects on it; the register is FLAGS or the one that the
instruction names. -/
theorem stepChangesStatusOrRegistersNeverBoth : Obligations.StepChangesStatusOrRegistersNeverBoth := by
  intro s t hstep
  obtain ⟨hrun, ⟨e, -, rfl⟩ | ⟨i, -, hwf, hexec⟩⟩ := step_cases hstep
  · exact ⟨.inr (s.readReg_abnormalHalt e), .ax, fun r _ => s.readReg_abnormalHalt e r⟩
  · have heffect := exec_effect hexec
    constructor
    · obtain ⟨-, rfl⟩ | hstatus := heffect.status_eq hwf
      · exact .inr s.readReg_halt
      · exact .inl hstatus
    · refine ⟨(destination? i).getD .flags, fun r hr => heffect.sameRegsExcept r fun hmem => hr ?_⟩
      obtain rfl | hdest | ⟨rfl, tA, vA, tB, vB, rfl⟩ := writtenRegs_cases hmem
      · simp
      · simp [hdest]
      · simp [destination?]

/-- Settles O22: SP is written as a destination only, FLAGS as a destination or by CMP. -/
theorem flagsAndStackPointerChangeOnlyByName : Obligations.FlagsAndStackPointerChangeOnlyByName := by
  intro s t i hi hstep
  have hframe := (step_effect hi hstep).sameRegsExcept
  refine ⟨fun hsp => hframe .sp fun hmem => ?_, fun hflags hcmp => hframe .flags fun hmem => ?_⟩
  · obtain h | hdest | ⟨h, -⟩ := writtenRegs_cases hmem
    · cases h
    · exact hsp hdest
    · cases h
  · obtain h | hdest | ⟨-, tA, vA, tB, vB, h⟩ := writtenRegs_cases hmem
    · cases h
    · exact hflags hdest
    · exact hcmp tA vA tB vB h

/-- CMP writes 1 or 0 (R202). -/
theorem equalFlag_boolean (p q : Word) : equalFlag p q = 0 ∨ equalFlag p q = 1 := by
  by_cases h : p = q
  · exact .inr (equalFlag_of_eq h)
  · exact .inl (equalFlag_of_ne h)

/-- A state with the FLAGS of another has FLAGS Boolean as that one has. -/
theorem FlagsIsBoolean.of_readReg_eq {s t : State} (hs : FlagsIsBoolean s) (h : t.readReg .flags = s.readReg .flags) :
    FlagsIsBoolean t := by
  unfold FlagsIsBoolean
  rwa [h]

/-- Settles O23: CMP writes a Boolean value, and every other effect leaves FLAGS as it was. -/
theorem flagsStaysBooleanUnlessNamed : Obligations.FlagsStaysBooleanUnlessNamed := by
  intro s t hs hstep hnot
  obtain ⟨-, ⟨e, -, rfl⟩ | ⟨i, hi, -, hexec⟩⟩ := step_cases hstep
  · exact hs.of_readReg_eq (s.readReg_abnormalHalt e .flags)
  · cases exec_effect hexec with
    | halt | abnormal => exact hs
    | write d v hdest =>
      have hd : d ≠ .flags := by rintro rfl; exact hnot i hi hdest
      exact hs.of_readReg_eq ((s.changesOnly_writeReg_advanceIP d v 3).1 .flags (by simp [hd.symm]))
    | compare p q =>
      unfold FlagsIsBoolean
      rw [State.readReg_flags_writeReg_advanceIP]
      exact equalFlag_boolean p q
    | jump a => exact hs.of_readReg_eq (s.readReg_jumpTo_other a (by decide))
    | skip a => exact hs.of_readReg_eq (s.readReg_advanceIP_other 2 (by decide))

/-! ### The invariant -/

/-- Settles O17: a RUNNING status has nothing to explain. -/
theorem consistencyHoldsAtReset : Obligations.ConsistencyHoldsAtReset :=
  ⟨⟨reset_mem_wf, trivial⟩, fun _ hwf => ⟨hwf, trivial⟩⟩

/-- Settles O16: the memory is the same list; the status after the step is RUNNING, or it is explained by what the
decoder read at an IP that neither end of a run moves. -/
theorem consistencyIsKeptByEveryStep : Obligations.ConsistencyIsKeptByEveryStep := by
  rintro s t ⟨hwf, -⟩ hstep
  refine ⟨by rw [step_mem_eq hstep]; exact hwf, ?_⟩
  obtain ⟨e, he, rfl⟩ | ⟨hhlt, rfl⟩ | hrunning := step_status_cases hstep
  · exact ⟨rfl, he⟩
  · exact hhlt
  · unfold StatusExplained
    rw [hrunning]
    trivial

/-! ### The words a step depends on -/

/-- The fetch presents the addresses of as many words as the opcode word fixes (R38). -/
theorem Memory.mem_fetchAddrs {m : Memory} {a : Word} {n k : Nat} (hn : opcodeLength? (m.read a) = some n)
    (hk : k < n) : a + BitVec.ofNat 16 k ∈ m.fetchAddrs a := by
  simp only [Memory.fetchAddrs, hn]
  exact List.mem_map.2 ⟨k, List.mem_range.2 hk, rfl⟩

/-- The address of the opcode word is presented always. -/
theorem Memory.self_mem_fetchAddrs (m : Memory) (a : Word) : a ∈ m.fetchAddrs a := by
  cases hn : opcodeLength? (m.read a) with
  | none => simp only [Memory.fetchAddrs, hn, List.mem_singleton]
  | some n =>
    have hpos : 0 < n := by
      unfold opcodeLength? at hn
      split at hn <;> cases hn <;> decide
    simpa using Memory.mem_fetchAddrs hn hpos

/-- Two memories that agree at the addresses fetched decode alike (R96, R142). -/
theorem Memory.decodeAt_congr {m m' : Memory} {a : Word} (h : ∀ b ∈ m.fetchAddrs a, m'.read b = m.read b) :
    m.decodeAt a = m'.decodeAt a := by
  refine decoderReadsOnlyItsOwnWords _ _ ?_ fun n hn k hk => ?_
  · rw [Memory.instrWord_zero, Memory.instrWord_zero, h a (m.self_mem_fetchAddrs a)]
  · rw [Memory.instrWord_zero] at hn
    exact (h _ (Memory.mem_fetchAddrs hn hk)).symm

/-- A well-formed instruction makes the same of the same registers and status, whatever the memory: what it writes
depends on registers alone, and the rest it leaves. -/
theorem exec_congr {i : Instr} {s s' : State} (hwf : i.wellFormed = true) (hregs : s.regs = s'.regs)
    (hstatus : s.status = s'.status) :
    ∃ t t', exec i s = .next t ∧ exec i s' = .next t' ∧ t.regs = t'.regs ∧ t.status = t'.status := by
  obtain ⟨t, ht⟩ := exec_isNext i s
  obtain ⟨t', ht'⟩ := exec_isNext i s'
  have hread (r : Reg) : s.readReg r = s'.readReg r := congrArg (fun x => x.read r) hregs
  obtain ⟨hwritten, hends⟩ := instructionReadsOnlyItsListedRegisters i s s' t t' hwf (fun r _ => hread r) ht ht'
  refine ⟨t, t', ht, ht', RegFile.ext_read fun r => ?_, hends hstatus⟩
  by_cases hr : r ∈ writtenRegs i
  · exact hwritten r hr
  · calc t.readReg r = s.readReg r := (exec_effect ht).sameRegsExcept r hr
      _ = s'.readReg r := hread r
      _ = t'.readReg r := ((exec_effect ht').sameRegsExcept r hr).symm

/-- Settles O27: the words fetched decide what is decoded, and from there the registers decide the rest. -/
theorem stepDependsOnlyOnFetchedWords : Obligations.StepDependsOnlyOnFetchedWords := by
  intro s s' hrun hrun' hregs hfetch
  have hpc : s.pc = s'.pc := congrArg RegFile.ip hregs
  have hdecode : s.mem.decodeAt s.pc = s'.mem.decodeAt s'.pc := by rw [← hpc, Memory.decodeAt_congr hfetch]
  cases hs : s.mem.decodeAt s.pc with
  | error e =>
    rw [step_of_decodeAt_error hrun hs, step_of_decodeAt_error hrun' (hdecode.symm.trans hs)]
    exact ⟨_, _, rfl, rfl, hregs, by rw [State.abnormalHalt_status, State.abnormalHalt_status, hpc]⟩
  | ok i =>
    rw [step_of_decodeAt_ok hrun hs, step_of_decodeAt_ok hrun' (hdecode.symm.trans hs)]
    exact exec_congr (decode_eq_ok_iff.1 hs).1 hregs (hrun.trans hrun'.symm)

end Sys2Proof.Machine
end

section
/-! PROOFS. Runs (40_cycle_and_hlt.md R148 to R150): the memory along a run, the bounded run beside the run, and the
host's view of its end. -/

namespace Sys2Proof.Machine

/-! ### Sequences of steps -/

/-- Settles O18: by induction on the steps, none of which stores anything. -/
theorem memoryIsConstantThroughoutARun : Obligations.MemoryIsConstantThroughoutARun := by
  intro s t hsteps
  have hmem : t.mem = s.mem := by
    induction hsteps with
    | refl => rfl
    | next _ hstep ih => exact (step_mem_eq hstep).trans ih
  exact ⟨fun a => by rw [hmem], hmem⟩

/-- One step more at the start. -/
theorem Steps.head {s t u : State} (hstep : step s = .next t) (h : Steps t u) : Steps s u := by
  induction h with
  | refl => exact .next (.refl s) hstep
  | next _ hlast ih => exact .next ih hlast

/-- Settles O46: a jump to itself answers the state it starts in, so induction reaches no other. -/
theorem selfJumpNeverEnds : Obligations.SelfJumpNeverEnds := by
  intro s hrun hself
  have hstep : step s = .next s := by
    obtain hjmp | ⟨hje, hflags⟩ := hself
    · rw [step_of_decodeAt_ok hrun hjmp, exec_jmp_self]
    · rw [step_of_decodeAt_ok hrun hje, exec_je, execBranch_taken _ _ (State.flagsSayEqual_iff.2 hflags),
        State.jumpTo_pc_self]
  have hstay : ∀ t, Steps s t → t = s := by
    intro t hsteps
    induction hsteps with
    | refl => rfl
    | next _ hlast ih => rw [ih] at hlast; exact step_deterministic hstep hlast
  exact ⟨fun t hsteps => by rw [hstay t hsteps]; exact hrun, hstay⟩

/-! ### The bounded run -/

theorem runFor_succ_of_step {s t : State} (n : Nat) (h : step s = .next t) : runFor (n + 1) s = runFor n t := by
  simp only [runFor, h]

/-- A step is taken while RUNNING only (R35). -/
theorem step_ne_next_of_ended {s : State} (hs : s.status ≠ .running) (t : State) : step s ≠ .next t :=
  fun h => hs (step_cases h).1

/-- A run that has ended stays where it is, whatever the bound. -/
theorem runFor_of_ended {s : State} (hs : s.status ≠ .running) (n : Nat) : runFor n s = s := by
  cases n with
  | zero => rfl
  | succ n =>
    simp only [runFor]
    split
    · exact absurd ‹_› (step_ne_next_of_ended hs _)
    · rfl

/-- The bounded run takes steps. -/
theorem steps_runFor (n : Nat) (s : State) : Steps s (runFor n s) := by
  induction n generalizing s with
  | zero => exact .refl s
  | succ n ih =>
    by_cases hs : s.status = .running
    · obtain ⟨t, ht⟩ := exists_step_of_running hs
      rw [runFor_succ_of_step n ht]
      exact .head ht (ih t)
    · rw [runFor_of_ended hs]
      exact .refl s

/-- What some steps reach, a bounded run passes through. -/
theorem Steps.exists_runFor_add {s t : State} (h : Steps s t) : ∃ n, ∀ k, runFor (n + k) s = runFor k t := by
  induction h with
  | refl => exact ⟨0, fun k => by rw [Nat.zero_add]⟩
  | next _ hstep ih =>
    obtain ⟨n, hn⟩ := ih
    refine ⟨n + 1, fun k => ?_⟩
    rw [Nat.add_assoc, Nat.add_comm 1 k, hn, runFor_succ_of_step k hstep]

/-- A run that ends is ended by some bound and by every greater one. -/
theorem RunEnds.exists_runFor {s t : State} (h : RunEnds s t) : ∃ n, ∀ m, n ≤ m → runFor m s = t := by
  obtain ⟨hsteps, hended⟩ := h
  obtain ⟨n, hn⟩ := hsteps.exists_runFor_add
  refine ⟨n, fun m hm => ?_⟩
  obtain ⟨k, rfl⟩ := Nat.exists_eq_add_of_le hm
  rw [hn, runFor_of_ended hended]

/-- Settles O45: the bounded run takes steps, and what steps reach it passes through. -/
theorem boundedRunAgreesWithTheRun : Obligations.BoundedRunAgreesWithTheRun := by
  intro s t
  refine ⟨fun n hn hended => ⟨?_, hended⟩, RunEnds.exists_runFor⟩
  rw [← hn]
  exact steps_runFor n s

/-- Settles O44: both ends are what the bounded run answers for a bound great enough for both. -/
theorem runEndsInAtMostOneState : Obligations.RunEndsInAtMostOneState := by
  intro s t u ht hu
  obtain ⟨n, hn⟩ := ht.exists_runFor
  obtain ⟨m, hm⟩ := hu.exists_runFor
  exact (hn _ (le_max_left n m)).symm.trans (hm _ (le_max_right n m))

/-! ### The host's view -/

/-- Settles O47: by the three statuses. -/
theorem hostObservesEndedCoreOnly : Obligations.HostObservesEndedCoreOnly := by
  intro s
  unfold State.observe
  cases hs : s.status with
  | running => exact ⟨fun _ => rfl, fun h => absurd rfl h⟩
  | halted | faulted => exact ⟨nofun, fun _ => rfl⟩

end Sys2Proof.Machine
end

section
/-! PROOFS. Memory images (10_state.md R22, 70_reset_and_hazards.md R271): what an image reads back, and an image grown
by the words stored past its end, which is how the assembler builds one (30_encoding.md R121). -/

namespace Sys2Proof.Machine

/-- An address counted from address 0, where an image starts, is the address itself. -/
theorem addr_zero_add (a : Word) : (0 : Word) + a = a := BitVec.zero_add a

/-- Below 65536 no address wraps. -/
theorem toNat_addr {k : Nat} (hk : k < 65536) : (BitVec.ofNat 16 k).toNat = k := by
  rw [BitVec.toNat_ofNat, Nat.mod_eq_of_lt hk]

/-- A list of at most 65536 words is stored whole. -/
theorem Memory.ofImage_eq {ws : List Word} (h : ws.length ≤ 65536) : Memory.ofImage ws = Memory.writeWords [] 0 ws := by
  rw [Memory.ofImage, List.take_of_length_le h]

/-- Settles O2: an address below the list's length is that of a stored word, and any other that of none. -/
theorem loadedImageReadsBack : Obligations.LoadedImageReadsBack := by
  intro ws hlen a
  rw [Memory.ofImage_eq hlen]
  obtain ha | ha := lt_or_ge a.toNat ws.length
  · have hinside := Memory.read_writeWords_inside reset_mem_wf 0 ws hlen a.toNat ha
    rw [addr_zero_add, BitVec.ofNat_toNat, BitVec.setWidth_eq] at hinside
    rw [List.getD_eq_getElem _ _ ha]
    exact hinside
  · rw [List.getD_eq_default _ _ ha, ← Memory.read_nil a]
    refine Memory.read_writeWords_outside reset_mem_wf 0 a ws fun k hk heq => ?_
    rw [heq, addr_zero_add, toNat_addr (by omega)] at ha
    omega

/-- Storing two lists one after the other. -/
theorem Memory.writeWords_append (m : Memory) (a : Word) (ws vs : List Word) :
    m.writeWords a (ws ++ vs) = (m.writeWords a ws).writeWords (a + BitVec.ofNat 16 ws.length) vs := by
  induction ws generalizing m a with
  | nil => simp [Memory.writeWords]
  | cons w ws ih => rw [List.cons_append, Memory.writeWords, ih, addr_succ]; rfl

/-- An image with more words stored at its end is the image of all the words. -/
theorem Memory.writeWords_ofImage {ws vs : List Word} (h : (ws ++ vs).length ≤ 65536) :
    (Memory.ofImage ws).writeWords (BitVec.ofNat 16 ws.length) vs = Memory.ofImage (ws ++ vs) := by
  have hws : ws.length ≤ 65536 := by rw [List.length_append] at h; omega
  rw [Memory.ofImage_eq h, Memory.ofImage_eq hws, Memory.writeWords_append, addr_zero_add]

/-- The words stored at an address are read there by the fetch (R53, R56). -/
theorem Memory.beginsWith_writeWords {m : Memory} (hm : m.wf) (a : Word) {ws : List Word}
    (hlen : ws.length ≤ Config.memWords) : BeginsWith ((m.writeWords a ws).instrWord a) ws :=
  fun k hk => Memory.read_writeWords_inside hm a ws hlen k hk

/-- A list that stands within an image is read by the fetch where it stands: no address wraps. -/
theorem Memory.beginsWith_ofImage {front mid rear : List Word} (h : (front ++ (mid ++ rear)).length ≤ 65536) :
    BeginsWith ((Memory.ofImage (front ++ (mid ++ rear))).instrWord (BitVec.ofNat 16 front.length)) mid := by
  intro k hk
  have hlen : front.length + k < 65536 := by simp only [List.length_append] at h; omega
  have haddr : (BitVec.ofNat 16 front.length + BitVec.ofNat 16 k).toNat = front.length + k := by
    rw [← BitVec.ofNat_add, toNat_addr hlen]
  rw [Memory.instrWord, loadedImageReadsBack _ h, haddr, List.getD_append_right _ _ _ _ (Nat.le_add_right ..),
    Nat.add_sub_cancel_left, List.getD_append _ _ _ _ hk, List.getD_eq_getElem]

end Sys2Proof.Machine
end

section
/-! PROOFS. What an accepted line spells (30_encoding.md R110 to R116): the forms each mnemonic emits, and that there
are no others. -/

namespace Sys2Proof.Machine

/-! ### The forms, by the kinds of the operands -/

/-- A first operand that is a register. -/
theorem classify_bind_needReg {a : List Char} {r : Reg} (h : classify a = .ok (.reg r)) :
    (classify a).bind needReg = .ok r := by rw [h]; rfl

/-- A first operand that is an immediate where a register is required (R114, R116). -/
theorem classify_bind_needReg_imm {a : List Char} {n : Int} (h : classify a = .ok (.imm n)) :
    (classify a).bind needReg = .error .invalidOperand := by rw [h]; rfl

theorem twoForms_imm (imm reg : Word → Word → Instr) {a b : List Char} {r : Reg} {n : Int}
    (ha : classify a = .ok (.reg r)) (hb : classify b = .ok (.imm n)) :
    twoForms imm reg a b = .ok (imm r.number (immWord n)) := by
  unfold twoForms; rw [classify_bind_needReg ha, hb]; rfl

theorem twoForms_reg (imm reg : Word → Word → Instr) {a b : List Char} {r q : Reg} (ha : classify a = .ok (.reg r))
    (hb : classify b = .ok (.reg q)) : twoForms imm reg a b = .ok (reg r.number q.number) := by
  unfold twoForms; rw [classify_bind_needReg ha, hb]; rfl

theorem twoForms_immFirst (imm reg : Word → Word → Instr) {a : List Char} (b : List Char) {n : Int}
    (ha : classify a = .ok (.imm n)) : twoForms imm reg a b = .error .invalidOperand := by
  unfold twoForms; rw [classify_bind_needReg_imm ha]; rfl

/-- CMP has the two forms of MOV, ADD and SUB, its instructions with tags (R116). -/
theorem compareForms_eq_twoForms (a b : List Char) :
    compareForms a b = twoForms (fun r v => .cmp 0 r 1 v) (fun r q => .cmp 0 r 0 q) a b := rfl

theorem jumpForm_imm (jump : Word → Instr) {a : List Char} {n : Int} (ha : classify a = .ok (.imm n)) :
    jumpForm jump a = .ok (jump (immWord n)) := by
  unfold jumpForm; rw [ha]; rfl

theorem jumpForm_reg (jump : Word → Instr) {a : List Char} {r : Reg} (ha : classify a = .ok (.reg r)) :
    jumpForm jump a = .error .invalidOperand := by
  unfold jumpForm; rw [ha]; rfl

/-- Settles O56: the two-operand mnemonics by the two forms, the jumps by the jump form. -/
theorem everyMnemonicEmitsItsForms : Obligations.EveryMnemonicEmitsItsForms := by
  refine ⟨fun a b r q n ha => ⟨fun hb => ?immSecond, fun hb => ?regSecond, ?regJump⟩,
    fun a b n ha => ⟨jumpForm_imm _ ha, jumpForm_imm _ ha, jumpForm_imm _ ha, ?immFirst⟩, rfl⟩
  case immSecond =>
    exact ⟨twoForms_imm _ _ ha hb, twoForms_imm _ _ ha hb, twoForms_imm _ _ ha hb,
      (compareForms_eq_twoForms a b).trans (twoForms_imm _ _ ha hb)⟩
  case regSecond =>
    exact ⟨twoForms_reg _ _ ha hb, twoForms_reg _ _ ha hb, twoForms_reg _ _ ha hb,
      (compareForms_eq_twoForms a b).trans (twoForms_reg _ _ ha hb)⟩
  case regJump =>
    rintro m (rfl | rfl | rfl)
    all_goals exact jumpForm_reg _ ha
  case immFirst =>
    rintro m (rfl | rfl | rfl | rfl)
    case inr.inr.inr => exact (compareForms_eq_twoForms a b).trans (twoForms_immFirst _ _ b ha)
    all_goals exact twoForms_immFirst _ _ b ha

/-- Settles O57: the word of an integer is its remainder, which is not negative. -/
theorem immediateIsReducedModulo65536 : Obligations.ImmediateIsReducedModulo65536 := by
  intro n
  rw [immWord, BitVec.toNat_ofInt]
  exact Int.toNat_of_nonneg (Int.emod_nonneg n (by decide))

/-! ### There are no other forms -/

/-- The instructions that source text can spell (R110 to R116). -/
inductive SourceForm : Instr → Prop where
  | hlt : SourceForm .hlt
  | movImm (r : Reg) (v : Word) : SourceForm (.movImm r.number v)
  | addImm (r : Reg) (v : Word) : SourceForm (.addImm r.number v)
  | subImm (r : Reg) (v : Word) : SourceForm (.subImm r.number v)
  | movReg (r q : Reg) : SourceForm (.movReg r.number q.number)
  | addReg (r q : Reg) : SourceForm (.addReg r.number q.number)
  | subReg (r q : Reg) : SourceForm (.subReg r.number q.number)
  | jmp (v : Word) : SourceForm (.jmp v)
  | cmpImm (r : Reg) (v : Word) : SourceForm (.cmp 0 r.number 1 v)
  | cmpReg (r q : Reg) : SourceForm (.cmp 0 r.number 0 q.number)
  | je (v : Word) : SourceForm (.je v)
  | jne (v : Word) : SourceForm (.jne v)

/-- Everything `twoForms` can answer as an instruction. -/
theorem twoForms_eq_ok {imm reg : Word → Word → Instr} {a b : List Char} {i : Instr}
    (h : twoForms imm reg a b = .ok i) :
    ∃ r : Reg, (∃ v, i = imm r.number v) ∨ ∃ q : Reg, i = reg r.number q.number := by
  obtain ⟨n, -, ha⟩ | ⟨r, -, -, ha⟩ | ⟨-, -, ha⟩ := classify_cases a
  · rw [twoForms_immFirst imm reg b ha] at h
    cases h
  · obtain ⟨n, -, hb⟩ | ⟨q, -, -, hb⟩ | ⟨-, -, hb⟩ := classify_cases b
    · rw [twoForms_imm imm reg ha hb] at h
      cases h
      exact ⟨r, .inl ⟨_, rfl⟩⟩
    · rw [twoForms_reg imm reg ha hb] at h
      cases h
      exact ⟨r, .inr ⟨q, rfl⟩⟩
    · unfold twoForms at h
      rw [classify_bind_needReg ha, hb] at h
      cases h
  · unfold twoForms at h
    rw [ha] at h
    cases h

/-- Everything `jumpForm` can answer as an instruction. -/
theorem jumpForm_eq_ok {jump : Word → Instr} {a : List Char} {i : Instr} (h : jumpForm jump a = .ok i) :
    ∃ v, i = jump v := by
  obtain ⟨n, -, ha⟩ | ⟨r, -, -, ha⟩ | ⟨-, -, ha⟩ := classify_cases a
  · rw [jumpForm_imm jump ha] at h
    cases h
    exact ⟨_, rfl⟩
  · rw [jumpForm_reg jump ha] at h
    cases h
  · unfold jumpForm at h
    rw [ha] at h
    cases h

/-- A mnemonic with its operands spells one of the source forms. -/
theorem instrOf_sourceForm {m : Mnemonic} {ts : List (List Char)} {i : Instr} (h : instrOf m ts = .ok i) :
    SourceForm i := by
  unfold instrOf at h
  split at h
  · cases h; exact .hlt
  · obtain ⟨r, ⟨v, rfl⟩ | ⟨q, rfl⟩⟩ := twoForms_eq_ok h
    · exact .movImm r v
    · exact .movReg r q
  · obtain ⟨r, ⟨v, rfl⟩ | ⟨q, rfl⟩⟩ := twoForms_eq_ok h
    · exact .addImm r v
    · exact .addReg r q
  · obtain ⟨r, ⟨v, rfl⟩ | ⟨q, rfl⟩⟩ := twoForms_eq_ok h
    · exact .subImm r v
    · exact .subReg r q
  · rw [compareForms_eq_twoForms] at h
    obtain ⟨r, ⟨v, rfl⟩ | ⟨q, rfl⟩⟩ := twoForms_eq_ok h
    · exact .cmpImm r v
    · exact .cmpReg r q
  · obtain ⟨v, rfl⟩ := jumpForm_eq_ok h; exact .jmp v
  · obtain ⟨v, rfl⟩ := jumpForm_eq_ok h; exact .je v
  · obtain ⟨v, rfl⟩ := jumpForm_eq_ok h; exact .jne v
  · cases h

/-- The instruction of an accepted line is one that its mnemonic and operands spell. -/
theorem assembleLine_eq_some {text : String} {i : Instr} (h : assembleLine text = .ok (some i)) :
    ∃ m ts, instrOf m ts = .ok i := by
  simp only [assembleLine] at h
  split at h
  · cases h
  · split at h
    · cases h
    · rename_i m _
      split at h
      · cases hinstr : instrOf m (operandTokens (operandText (cleanLine text))) with
        | error k => rw [hinstr] at h; cases h
        | ok j => rw [hinstr] at h; cases h; exact ⟨m, _, hinstr⟩
      · cases h

theorem assembleLine_sourceForm {text : String} {i : Instr} (h : assembleLine text = .ok (some i)) : SourceForm i := by
  obtain ⟨m, ts, hinstr⟩ := assembleLine_eq_some h
  exact instrOf_sourceForm hinstr

theorem regIdOk_number (r : Reg) : regIdOk r.number = true := regIdOk_iff.2 ⟨r, Reg.ofNumber?_number r⟩

theorem operandOk_register (r : Reg) : operandOk 0 r.number = true := by
  rw [operandOk, regIdOk_number, Bool.or_true, Bool.and_true]; rfl

theorem operandOk_immediate (v : Word) : operandOk 1 v = true := rfl

/-- Source text names registers, so that every register-number word is legal (R97). -/
theorem SourceForm.wellFormed {i : Instr} (h : SourceForm i) : i.wellFormed = true := by
  cases h with
  | hlt | jmp | je | jne => rfl
  | movImm r | addImm r | subImm r => exact regIdOk_number r
  | movReg r q | addReg r q | subReg r q => simp [Instr.wellFormed, regIdOk_number]
  | cmpImm r v => exact (Bool.and_eq_true ..).mpr ⟨operandOk_register r, operandOk_immediate v⟩
  | cmpReg r q => exact (Bool.and_eq_true ..).mpr ⟨operandOk_register r, operandOk_register q⟩

/-- No instruction is longer than the memory (R88). -/
theorem length_encode_le_memWords (i : Instr) : (encode i).length ≤ Config.memWords := by
  cases i <;> simp [encode, Instr.operandWords, Config.memWords]

/-- Settles O48: the instruction is well-formed, and the fetch reads back its encoding where it was stored. -/
theorem assembledLineDecodesToItsInstruction : Obligations.AssembledLineDecodesToItsInstruction := by
  intro text i hline
  have hwf : i.wellFormed = true := (assembleLine_sourceForm hline).wellFormed
  exact ⟨hwf, fun m c hm =>
    Memory.decodeAt_of_beginsWith hwf (Memory.beginsWith_writeWords hm c (length_encode_le_memWords i))⟩

/-- Settles O59: of the source forms, two are a CMP. -/
theorem assembledCompareHasRegisterFirst : Obligations.AssembledCompareHasRegisterFirst := by
  intro text tA vA tB vB hline
  cases assembleLine_sourceForm hline with
  | cmpImm r => exact ⟨rfl, r, rfl⟩
  | cmpReg r => exact ⟨rfl, r, rfl⟩

end Sys2Proof.Machine
end

section
/-! PROOFS. Assembling a text (30_encoding.md R105, R119 to R122): the assembler's state is at all times that of the
words emitted so far, so that its image is the encodings in order. -/

namespace Sys2Proof.Machine

/-! ### One line -/

/-- Settles O58: the two branches of an emission. -/
theorem emissionFailsExactlyPastTheEnd : Obligations.EmissionFailsExactlyPastTheEnd := fun _ _ =>
  ⟨fun hpast => if_neg (Nat.not_le.2 hpast), fun hfits => ⟨_, if_pos hfits, rfl⟩⟩

theorem AsmState.line_of_skip {st : AsmState} {text : String} (h : assembleLine text = .ok none) :
    st.line text = .ok st := by
  simp only [AsmState.line, h]

theorem AsmState.line_of_instr {st : AsmState} {text : String} {i : Instr} (h : assembleLine text = .ok (some i)) :
    st.line text = st.emit i := by
  simp only [AsmState.line, h]

theorem assembleFrom_cons_of_ok {n : Nat} {st st' : AsmState} {text : String} (rest : List String)
    (h : st.line text = .ok st') : assembleFrom n st (text :: rest) = assembleFrom (n + 1) st' rest := by
  simp only [assembleFrom, h]

theorem assembleFrom_cons_of_error {n : Nat} {st : AsmState} {text : String} {k : AsmErrorKind} (rest : List String)
    (h : st.line text = .error k) : assembleFrom n st (text :: rest) = .error ⟨n, k⟩ := by
  simp only [assembleFrom, h]

theorem spelledInstrs_cons_of_skip {text : String} (rest : List String) (h : assembleLine text = .ok none) :
    spelledInstrs (text :: rest) = spelledInstrs rest := by
  simp [spelledInstrs, h]

theorem spelledInstrs_cons_of_instr {text : String} {i : Instr} (rest : List String)
    (h : assembleLine text = .ok (some i)) : spelledInstrs (text :: rest) = i :: spelledInstrs rest := by
  simp [spelledInstrs, h]

/-- Each instruction of a text is spelled by a line of it. -/
theorem exists_line_of_mem_spelledInstrs {lines : List String} {i : Instr} (h : i ∈ spelledInstrs lines) :
    ∃ text ∈ lines, assembleLine text = .ok (some i) := by
  obtain ⟨text, htext, hi⟩ := List.mem_filterMap.1 h
  refine ⟨text, htext, ?_⟩
  split at hi
  · cases hi; assumption
  · cases hi

/-! ### The state after the words emitted so far -/

/-- The assembler after it has emitted `ws` from address 0 (R121). -/
def AsmState.ofWords (ws : List Word) : AsmState := { cursor := ws.length, image := Memory.ofImage ws }

theorem AsmState.start_eq_ofWords : AsmState.start = .ofWords [] := rfl

/-- An emission that fits adds the encoding to the words emitted. -/
theorem AsmState.emit_ofWords {ws : List Word} {i : Instr} (h : (ws ++ encode i).length ≤ 65536) :
    (AsmState.ofWords ws).emit i = .ok (.ofWords (ws ++ encode i)) := by
  have hfits : (AsmState.ofWords ws).cursor + (encode i).length ≤ Config.memWords := by
    rwa [List.length_append] at h
  rw [AsmState.emit, if_pos hfits, AsmState.ofWords, Memory.writeWords_ofImage h, AsmState.ofWords, List.length_append]

/-- A text that assembles has emitted the encodings of its instructions, and they fit. -/
theorem assembleFrom_ofWords_eq_ok {n : Nat} {ws : List Word} {st : AsmState} {lines : List String}
    (hws : ws.length ≤ 65536) (h : assembleFrom n (.ofWords ws) lines = .ok st) :
    st = .ofWords (ws ++ (spelledInstrs lines).flatMap encode) ∧
      (ws ++ (spelledInstrs lines).flatMap encode).length ≤ 65536 := by
  induction lines generalizing n ws with
  | nil =>
    cases h
    have hnone : (spelledInstrs []).flatMap encode = [] := rfl
    rw [hnone, List.append_nil]
    exact ⟨rfl, hws⟩
  | cons text rest ih =>
    cases hline : (AsmState.ofWords ws).line text with
    | error k => rw [assembleFrom_cons_of_error rest hline] at h; cases h
    | ok st' =>
      rw [assembleFrom_cons_of_ok rest hline] at h
      obtain ⟨hskip, rfl⟩ | ⟨i, hi, hemit⟩ := AsmState.line_eq_ok hline
      · rw [spelledInstrs_cons_of_skip rest hskip]
        exact ih hws h
      · have hfits : (ws ++ encode i).length ≤ 65536 := by
          rw [List.length_append]; exact (AsmState.emit_eq_ok hemit).1
        cases (AsmState.emit_ofWords hfits).symm.trans hemit
        rw [spelledInstrs_cons_of_instr rest hi, List.flatMap_cons, ← List.append_assoc]
        exact ih hfits h

/-- Accepted lines whose words fit are assembled to the end. -/
theorem exists_assembleFrom_ofWords {n : Nat} {ws : List Word} {lines : List String}
    (haccepted : ∀ text ∈ lines, ∃ r, assembleLine text = .ok r)
    (hfits : (ws ++ (spelledInstrs lines).flatMap encode).length ≤ 65536) :
    ∃ st, assembleFrom n (.ofWords ws) lines = .ok st := by
  induction lines generalizing n ws with
  | nil => exact ⟨_, rfl⟩
  | cons text rest ih =>
    obtain ⟨haccepts, hrest⟩ := List.forall_mem_cons.1 haccepted
    obtain ⟨_ | i, hline⟩ := haccepts
    · rw [spelledInstrs_cons_of_skip rest hline] at hfits
      rw [assembleFrom_cons_of_ok rest (AsmState.line_of_skip hline)]
      exact ih hrest hfits
    · rw [spelledInstrs_cons_of_instr rest hline, List.flatMap_cons, ← List.append_assoc] at hfits
      have hemit : (AsmState.ofWords ws).emit i = .ok (.ofWords (ws ++ encode i)) :=
        AsmState.emit_ofWords (by rw [List.length_append] at hfits; omega)
      rw [assembleFrom_cons_of_ok rest ((AsmState.line_of_instr hline).trans hemit)]
      exact ih hrest hfits

/-! ### The whole text -/

/-- The image of a text that assembles is that of its instructions' encodings, and they fit. -/
theorem assemble_eq_ok {lines : List String} {m : Memory} (h : assemble lines = .ok m) :
    m = Memory.ofImage ((spelledInstrs lines).flatMap encode) ∧
      ((spelledInstrs lines).flatMap encode).length ≤ 65536 := by
  unfold assemble at h
  cases hst : assembleFrom 1 .start lines with
  | error e => rw [hst] at h; cases h
  | ok st =>
    rw [hst] at h
    cases h
    obtain ⟨rfl, hfits⟩ := assembleFrom_ofWords_eq_ok (ws := []) (Nat.zero_le _) hst
    exact ⟨rfl, hfits⟩

/-- Settles O49: such an image reads back its words. -/
theorem assembledImageIsTheEncodingsInOrder : Obligations.AssembledImageIsTheEncodingsInOrder := by
  intro lines m hm
  obtain ⟨rfl, hfits⟩ := assemble_eq_ok hm
  exact ⟨hfits, loadedImageReadsBack _ hfits⟩

/-- Settles O50: the encoding stands in the image after those of the instructions before it, where the fetch reads it
whole, and a line spells well-formed instructions only. -/
theorem assembledTextDecodesInstructionByInstruction : Obligations.AssembledTextDecodesInstructionByInstruction := by
  intro lines m before after i hm hlines
  obtain ⟨rfl, hfits⟩ := assemble_eq_ok hm
  obtain ⟨text, -, hline⟩ := exists_line_of_mem_spelledInstrs (lines := lines) (i := i) (by simp [hlines])
  rw [hlines, List.flatMap_append, List.flatMap_cons] at hfits ⊢
  exact Memory.decodeAt_of_beginsWith (assembleLine_sourceForm hline).wellFormed (Memory.beginsWith_ofImage hfits)

/-- Settles O51: from the start, where no word has been emitted. -/
theorem acceptedLinesThatFitAssemble : Obligations.AcceptedLinesThatFitAssemble := by
  intro lines haccepted hfits
  obtain ⟨st, hst⟩ := exists_assembleFrom_ofWords (n := 1) (ws := []) haccepted hfits
  rw [← AsmState.start_eq_ofWords] at hst
  exact ⟨st.image, by rw [assemble, hst]; rfl⟩

/-- An error names the first line that fails, counted from the number of the first line. -/
theorem assembleFrom_eq_error {n : Nat} {st : AsmState} {lines : List String} {e : AsmError}
    (h : assembleFrom n st lines = .error e) :
    ∃ before text after st', lines = before ++ text :: after ∧ e.line = before.length + n ∧
      assembleFrom n st before = .ok st' ∧ st'.line text = .error e.kind := by
  induction lines generalizing n st with
  | nil => cases h
  | cons text rest ih =>
    cases hline : st.line text with
    | error k =>
      rw [assembleFrom_cons_of_error rest hline] at h
      cases h
      exact ⟨[], text, rest, st, rfl, (Nat.zero_add n).symm, rfl, hline⟩
    | ok st' =>
      rw [assembleFrom_cons_of_ok rest hline] at h
      obtain ⟨before, bad, after, st'', rfl, hnumber, hbefore, hbad⟩ := ih h
      refine ⟨text :: before, bad, after, st'', rfl, ?_, ?_, hbad⟩
      · rw [hnumber, List.length_cons]; omega
      · rw [assembleFrom_cons_of_ok before hline, hbefore]

/-- Settles O52: the first line has number 1. -/
theorem firstMalformedLineWins : Obligations.FirstMalformedLineWins := by
  intro lines e h
  unfold assemble at h
  cases herror : assembleFrom 1 .start lines with
  | ok st => rw [herror] at h; cases h
  | error e' =>
    rw [herror] at h
    cases h
    exact assembleFrom_eq_error herror

end Sys2Proof.Machine
end

section
/-! PROOFS. The text of a line (30_encoding.md R106 to R109, R123): comments, blanks and letter case. -/

namespace Sys2Proof.Machine

/-! ### Comments -/

@[simp] theorem stripComment_nil : stripComment [] = [] := rfl

/-- A comment is dropped with its two slashes (R106). -/
@[simp] theorem stripComment_comment (cs : List Char) : stripComment ('/' :: '/' :: cs) = [] := rfl

/-- A character that starts no comment is kept. -/
theorem stripComment_cons {c : Char} {cs : List Char} (h : c = '/' → cs.head? ≠ some '/') :
    stripComment (c :: cs) = c :: stripComment cs := by
  rw [stripComment]
  rintro ds rfl rfl
  exact h rfl rfl

/-- Text without a slash is kept, up to a comment. -/
theorem stripComment_append {cs : List Char} (h : '/' ∉ cs) (rest : List Char) :
    stripComment (cs ++ rest) = cs ++ stripComment rest := by
  induction cs with
  | nil => rfl
  | cons c cs ih =>
    obtain ⟨hc, hcs⟩ := not_or.1 (mt List.mem_cons.2 h)
    rw [List.cons_append, stripComment_cons fun heq => absurd heq.symm hc, ih hcs, List.cons_append]

theorem stripComment_eq_self {cs : List Char} (h : '/' ∉ cs) : stripComment cs = cs := by
  simpa using stripComment_append h []

/-- The cleaned line does not see a comment after text without a slash. -/
theorem cleanLine_append_comment {cs : List Char} (h : '/' ∉ cs) (comment : List Char) :
    cleanLine (String.ofList (cs ++ '/' :: '/' :: comment)) = cleanLine (String.ofList cs) := by
  simp only [cleanLine, String.toList_ofList, stripComment_append h, stripComment_comment, stripComment_eq_self h,
    List.append_nil]

/-- Settles O54: the two lines are the same once cleaned, and the assembler sees the cleaned line alone. -/
theorem trailingCommentChangesNothing : Obligations.TrailingCommentChangesNothing := by
  intro cs comment hslash
  unfold assembleLine
  rw [cleanLine_append_comment hslash]

/-! ### Blank lines -/

theorem trim_of_blank {cs : List Char} (h : ∀ c ∈ cs, isBlank c = true) : trim cs = [] := by
  have hdrop : cs.dropWhile isBlank = [] := List.dropWhile_eq_nil_iff.2 h
  rw [trim, hdrop]; rfl

/-- A slash is no blank. -/
theorem slash_not_mem_of_blank {cs : List Char} (h : ∀ c ∈ cs, isBlank c = true) : '/' ∉ cs :=
  fun hmem => absurd (h _ hmem) (by decide)

theorem cleanLine_of_blank {cs : List Char} (h : ∀ c ∈ cs, isBlank c = true) : cleanLine (String.ofList cs) = [] := by
  rw [cleanLine, String.toList_ofList, stripComment_eq_self (slash_not_mem_of_blank h), trim_of_blank h]

/-- A line with nothing left is skipped (R106). -/
theorem assembleLine_of_cleanLine_nil {text : String} (h : cleanLine text = []) : assembleLine text = .ok none :=
  if_pos h

/-- Settles O53: an empty cleaned line is skipped, and blanks, with a comment after them or not, leave nothing. -/
theorem skippedLineOnlyCounts : Obligations.SkippedLineOnlyCounts := by
  refine ⟨fun n st text rest hclean => ?_, fun blanks cs hblanks => ⟨cleanLine_of_blank hblanks, ?_⟩⟩
  · exact assembleFrom_cons_of_ok rest (AsmState.line_of_skip (assembleLine_of_cleanLine_nil hclean))
  · rw [cleanLine_append_comment (slash_not_mem_of_blank hblanks), cleanLine_of_blank hblanks]

/-! ### Letter case

Each operation on text commutes with upper-casing, and each reading of a token is blind to it (R108). -/

/-- The text upper-cased, as a list of characters. -/
abbrev upperCase (cs : List Char) : List Char := cs.map Char.toUpper

/-- Upper-casing moves letters only (log 5). -/
theorem toUpper_of_not_isAlpha {c : Char} (h : c.isAlpha = false) : c.toUpper = c := by
  refine Char.toUpper_eq_of_not_isLower fun hlower => ?_
  simp [Char.isAlpha, hlower] at h

/-- A test that no letter passes does not see upper-casing. -/
theorem test_toUpper {p : Char → Bool} (hp : ∀ c, c.isAlpha = true → p c = false) : p ∘ Char.toUpper = p := by
  funext c
  cases hc : c.isAlpha with
  | false => rw [Function.comp_apply, toUpper_of_not_isAlpha hc]
  | true => rw [Function.comp_apply, hp c hc, hp _ (by rw [Char.isAlpha_toUpper_eq_isAlpha, hc])]

/-- A test for one character that is no letter. -/
theorem beq_of_isAlpha {c d : Char} (hd : d.isAlpha = false) (hc : c.isAlpha = true) : (c == d) = false := by
  rw [beq_eq_false_iff_ne]
  rintro rfl
  rw [hc] at hd
  cases hd

/-- Upper-casing makes no character one that is no letter, and moves none away. -/
theorem toUpper_eq_iff {c d : Char} (hd : d.isAlpha = false) : c.toUpper = d ↔ c = d := by
  have htest := congrFun (test_toUpper (p := (· == d)) fun _ => beq_of_isAlpha hd) c
  rw [← beq_iff_eq (a := c.toUpper), ← beq_iff_eq (a := c)]
  exact iff_of_eq (congrArg (· = true) htest)

/-- Nor does it at the start of a text. -/
theorem head?_upperCase {d : Char} (hd : d.isAlpha = false) {cs : List Char} :
    (upperCase cs).head? = some d ↔ cs.head? = some d := by
  cases cs with
  | nil => exact Iff.rfl
  | cons c cs => simp [upperCase, toUpper_eq_iff hd]

theorem isBlank_toUpper : isBlank ∘ Char.toUpper = isBlank :=
  test_toUpper fun c hc => by
    rw [isBlank, beq_of_isAlpha (by decide) hc, beq_of_isAlpha (by decide) hc]; rfl

theorem not_isBlank_toUpper : (fun c => !isBlank c) ∘ Char.toUpper = fun c => !isBlank c :=
  funext fun c => congrArg (!·) (congrFun isBlank_toUpper c)

theorem ne_comma_toUpper : (· != ',') ∘ Char.toUpper = (· != ',') :=
  funext fun c => congrArg (!·) (congrFun (test_toUpper fun _ => beq_of_isAlpha (by decide)) c)

/-- No letter is a digit. -/
theorem isDecimal_of_isAlpha {c : Char} (h : c.isAlpha = true) : isDecimal c = false := by
  have hletter : (65 ≤ c.toNat ∧ c.toNat ≤ 90) ∨ (97 ≤ c.toNat ∧ c.toNat ≤ 122) := by
    simpa [Char.isAlpha, Char.isUpper, Char.isLower, UInt32.le_iff_toNat_le] using h
  rw [isDecimal, ← Bool.decide_and, decide_eq_false_iff_not, show '0'.toNat = 48 from rfl, show '9'.toNat = 57 from rfl]
  omega

theorem isDecimal_toUpper : isDecimal ∘ Char.toUpper = isDecimal := test_toUpper fun _ => isDecimal_of_isAlpha

/-! #### The cutting of a line -/

theorem stripComment_upperCase (cs : List Char) : stripComment (upperCase cs) = upperCase (stripComment cs) := by
  induction cs using stripComment.induct with
  | case1 => rfl
  | case2 cs => rfl
  | case3 c cs hno ih =>
    have hkeep : c = '/' → cs.head? ≠ some '/' := by
      rintro rfl hhead
      obtain ⟨ds, rfl⟩ := List.head?_eq_some_iff.1 hhead
      exact hno ds rfl rfl
    rw [stripComment_cons hkeep, upperCase, List.map_cons, stripComment_cons, ← upperCase, ih]
    · rfl
    · rw [toUpper_eq_iff (by decide), Ne, head?_upperCase (by decide)]
      exact hkeep

theorem trim_upperCase (cs : List Char) : trim (upperCase cs) = upperCase (trim cs) := by
  simp only [trim, upperCase, List.dropWhile_map, isBlank_toUpper, ← List.map_reverse]

theorem mnemonicToken_upperCase (cs : List Char) : mnemonicToken (upperCase cs) = upperCase (mnemonicToken cs) := by
  simp only [mnemonicToken, upperCase, List.takeWhile_map, not_isBlank_toUpper]

theorem operandText_upperCase (cs : List Char) : operandText (upperCase cs) = upperCase (operandText cs) := by
  simp only [operandText, ← trim_upperCase, upperCase, List.dropWhile_map, not_isBlank_toUpper]

theorem operandTokens_upperCase (cs : List Char) :
    operandTokens (upperCase cs) = (operandTokens cs).map upperCase := by
  have hdrop : (upperCase cs).dropWhile (· != ',') = upperCase (cs.dropWhile (· != ',')) := by
    rw [List.dropWhile_map, ne_comma_toUpper]
  have htake : (upperCase cs).takeWhile (· != ',') = upperCase (cs.takeWhile (· != ',')) := by
    rw [List.takeWhile_map, ne_comma_toUpper]
  unfold operandTokens
  simp only [List.map_eq_nil_iff, hdrop, htake]
  by_cases hcs : cs = []
  · rw [if_pos hcs, if_pos hcs]; rfl
  · rw [if_neg hcs, if_neg hcs]
    cases cs.dropWhile (· != ',') with
    | nil => simp [trim_upperCase]
    | cons comma rest => simp [trim_upperCase]

/-! #### The reading of a token -/

theorem upper_upperCase (cs : List Char) : upper (upperCase cs) = upper cs := by
  rw [upper, upper, List.map_map]
  exact congrArg String.ofList (List.map_congr_left fun c _ => Char.toUpper_toUpper_eq_toUpper c)

theorem mnemonicOf?_upperCase (cs : List Char) : mnemonicOf? (upperCase cs) = mnemonicOf? cs := by
  rw [mnemonicOf?, upper_upperCase, mnemonicOf?]

theorem regNamed?_upperCase (cs : List Char) : regNamed? (upperCase cs) = regNamed? cs := by
  rw [regNamed?, upper_upperCase, regNamed?]

/-- A string of digits has no letter case. -/
theorem upperCase_of_isDecimal {cs : List Char} (h : cs.all isDecimal = true) : upperCase cs = cs := by
  have hself : ∀ c ∈ cs, c.toUpper = id c := fun c hc => toUpper_of_not_isAlpha <| Bool.eq_false_iff.2 fun halpha => by
    have hdigit : isDecimal c = true := List.all_eq_true.1 h c hc
    rw [isDecimal_of_isAlpha halpha] at hdigit
    cases hdigit
  rw [upperCase, List.map_congr_left hself, List.map_id]

theorem digits?_upperCase (cs : List Char) : digits? (upperCase cs) = digits? cs := by
  cases hall : cs.all isDecimal with
  | true => rw [upperCase_of_isDecimal hall]
  | false => simp [digits?, List.all_map, isDecimal_toUpper, hall]

theorem immediate?_minus (cs : List Char) : immediate? ('-' :: cs) = (digits? cs).map fun n => -(n : Int) := rfl

theorem immediate?_of_head?_ne {cs : List Char} (h : cs.head? ≠ some '-') :
    immediate? cs = (digits? cs).map fun n => (n : Int) := by
  rw [immediate?]
  rintro ds rfl
  exact h rfl

theorem immediate?_upperCase (cs : List Char) : immediate? (upperCase cs) = immediate? cs := by
  by_cases hminus : cs.head? = some '-'
  · obtain ⟨ds, rfl⟩ := List.head?_eq_some_iff.1 hminus
    have hupper : upperCase ('-' :: ds) = '-' :: upperCase ds := rfl
    rw [hupper, immediate?_minus, immediate?_minus, digits?_upperCase]
  · have hupper : (upperCase cs).head? ≠ some '-' := by rwa [Ne, head?_upperCase (by decide)]
    rw [immediate?_of_head?_ne hminus, immediate?_of_head?_ne hupper, digits?_upperCase]

theorem classify_upperCase (cs : List Char) : classify (upperCase cs) = classify cs := by
  rw [classify, immediate?_upperCase, regNamed?_upperCase, classify]

/-! #### The instruction of a line -/

theorem twoForms_upperCase (imm reg : Word → Word → Instr) (a b : List Char) :
    twoForms imm reg (upperCase a) (upperCase b) = twoForms imm reg a b := by
  simp only [twoForms, classify_upperCase]

theorem jumpForm_upperCase (jump : Word → Instr) (a : List Char) : jumpForm jump (upperCase a) = jumpForm jump a := by
  simp only [jumpForm, classify_upperCase]

theorem instrOf_upperCase (m : Mnemonic) (ts : List (List Char)) : instrOf m (ts.map upperCase) = instrOf m ts := by
  match ts with
  | [] => rfl
  | [a] =>
    cases m with
    | jmp | je | jne => exact jumpForm_upperCase _ a
    | hlt | mov | add | sub | cmp => rfl
  | [a, b] =>
    cases m with
    | mov | add | sub => exact twoForms_upperCase _ _ a b
    | cmp => exact twoForms_upperCase (fun r v => .cmp 0 r 1 v) (fun r q => .cmp 0 r 0 q) a b
    | hlt | jmp | je | jne => rfl
  | _ :: _ :: _ :: _ => cases m <;> rfl

theorem splitOk_upperCase (m : Mnemonic) (ts : List (List Char)) : splitOk m (ts.map upperCase) = splitOk m ts := by
  simp [splitOk, List.all_map, Function.comp_def]

theorem cleanLine_upper (text : String) : cleanLine (upper text.toList) = upperCase (cleanLine text) := by
  rw [cleanLine, upper, String.toList_ofList, stripComment_upperCase, trim_upperCase, cleanLine]

/-- A line assembles as it does in upper case. -/
theorem assembleLine_upper (text : String) : assembleLine (upper text.toList) = assembleLine text := by
  simp only [assembleLine, cleanLine_upper, List.map_eq_nil_iff, mnemonicToken_upperCase, mnemonicOf?_upperCase,
    operandText_upperCase, operandTokens_upperCase, splitOk_upperCase, instrOf_upperCase]

/-- Settles O55: both lines assemble as the one line that they are in upper case. -/
theorem letterCaseMakesNoDifference : Obligations.LetterCaseMakesNoDifference := by
  intro line line' heq
  rw [← assembleLine_upper line, heq, assembleLine_upper]

end Sys2Proof.Machine
end
